-- ==== Sys2Proof/Word.lean ====
section
/-! DEFINITION. The machine's word and byte (spec/00_scope.md R11, spec/10_state.md R22). -/

namespace Sys2Proof

/-- A value of memory, of the PC and of a resolved operand: 16 bits (R11, R22). -/
abbrev Word := BitVec 16

/-- One byte of the host's input or output stream (R237, R243). -/
abbrev Byte := BitVec 8

/-- The set `u16` is 0..65535, so its size is this (R13). -/
abbrev wordSize : Nat := 65536

end Sys2Proof
end

