-- ==== Sys2Proof/Syntax.lean ====
section
/-! DEFINITION. Instructions, operands and ROM lines (spec/30_encoding.md R71, R81 to R84). -/

namespace Sys2Proof

/-- An addressing mode, the indirection depth of an operand (R75, R83). -/
inductive Mode where
  /-- No letter: depth 0, the literal itself. -/
  | imm
  /-- Letter `A`: depth 1. -/
  | a
  /-- Letter `B`: depth 2. -/
  | b
  /-- Letter `C`: depth 3. -/
  | c
  deriving DecidableEq, Repr

/-- How many times the literal is dereferenced (R47). -/
def Mode.depth : Mode → Nat
  | .imm => 0
  | .a => 1
  | .b => 2
  | .c => 3

/-- An operand: a mode and the 16-bit literal `lit16` (R78, R80). -/
structure Operand where
  mode : Mode
  lit  : Word
  deriving DecidableEq, Repr

/-- The closed set of 13 opcodes, in the document's order (R2, R82). -/
inductive Opcode where
  | mnz | mlz | add | sub | and | or | xor | ant | sl | srl | sra | sru | sre
  deriving DecidableEq, Repr

/-- A decoded instruction: operands 1 and 2 give the sources `a` and `b`, operand 3 the destination
address `c` (R52, R80). One constructor per row of spec/opcode_table.json. -/
inductive Instr where
  /-- Move if not zero (R141). -/
  | mnz (o1 o2 o3 : Operand)
  /-- Move if less than zero (R142). -/
  | mlz (o1 o2 o3 : Operand)
  /-- Addition modulo 65536 (R151). -/
  | add (o1 o2 o3 : Operand)
  /-- Subtraction modulo 65536 (R152). -/
  | sub (o1 o2 o3 : Operand)
  /-- Bitwise AND (R161). -/
  | and (o1 o2 o3 : Operand)
  /-- Bitwise OR (R162). -/
  | or (o1 o2 o3 : Operand)
  /-- Bitwise exclusive OR (R163). -/
  | xor (o1 o2 o3 : Operand)
  /-- AND NOT (R164). -/
  | ant (o1 o2 o3 : Operand)
  /-- Shift left (R171). -/
  | sl (o1 o2 o3 : Operand)
  /-- Shift right logical (R172). -/
  | srl (o1 o2 o3 : Operand)
  /-- The document's 8-bit "arithmetic" right shift (R173). -/
  | sra (o1 o2 o3 : Operand)
  /-- Shift operand 2 right by one (R174). -/
  | sru (o1 o2 o3 : Operand)
  /-- Extract the high byte of operand 2 (R175). -/
  | sre (o1 o2 o3 : Operand)
  deriving DecidableEq, Repr

/-- The opcode of an instruction. -/
def Instr.opcode : Instr → Opcode
  | .mnz _ _ _ => .mnz
  | .mlz _ _ _ => .mlz
  | .add _ _ _ => .add
  | .sub _ _ _ => .sub
  | .and _ _ _ => .and
  | .or _ _ _ => .or
  | .xor _ _ _ => .xor
  | .ant _ _ _ => .ant
  | .sl _ _ _ => .sl
  | .srl _ _ _ => .srl
  | .sra _ _ _ => .sra
  | .sru _ _ _ => .sru
  | .sre _ _ _ => .sre

/-- The three operands of an instruction, in operand order. -/
def Instr.operands : Instr → Operand × Operand × Operand
  | .mnz x y z | .mlz x y z | .add x y z | .sub x y z | .and x y z | .or x y z | .xor x y z
  | .ant x y z | .sl x y z | .srl x y z | .sra x y z | .sru x y z | .sre x y z => (x, y, z)

/-- The instruction with a given opcode; the opcode alone selects it (R88). -/
def Opcode.instr : Opcode → Operand → Operand → Operand → Instr
  | .mnz => .mnz
  | .mlz => .mlz
  | .add => .add
  | .sub => .sub
  | .and => .and
  | .or => .or
  | .xor => .xor
  | .ant => .ant
  | .sl => .sl
  | .srl => .srl
  | .sra => .sra
  | .sru => .sru
  | .sre => .sre

/-- A decoded instruction word, bit 57 most significant (R81). -/
abbrev Diw := BitVec 58

/-- One line of the ROM: raw text, or a pre-decoded word (R34, R71). -/
inductive RomLine where
  /-- A line of ROM text, as its characters without the line end. -/
  | text (line : List Char)
  /-- A pre-decoded line (R86). -/
  | word (w : Diw)
  deriving DecidableEq, Repr

end Sys2Proof
end

