-- ==== Sys2Proof/Decode.lean ====
section
/-! DEFINITION. The instruction decoder for both forms of a ROM line, the splitting of ROM text into lines,
and the encoders (spec/30_encoding.md). The decoder is total and rejects by name. -/

namespace Sys2Proof

/-! ### Encoding tables (R75, R82, R83) -/

/-- The `opc` field of an opcode (R82). -/
def Opcode.field : Opcode → BitVec 4
  | .mnz => 0
  | .mlz => 1
  | .add => 2
  | .sub => 3
  | .and => 4
  | .or => 5
  | .xor => 6
  | .ant => 7
  | .sl => 8
  | .srl => 9
  | .sra => 10
  | .sru => 11
  | .sre => 12

/-- The opcode an `opc` field selects; 13, 14 and 15 select none (R82, R90). -/
def opcodeOfField (f : BitVec 4) : Option Opcode :=
  match f.toNat with
  | 0 => some .mnz
  | 1 => some .mlz
  | 2 => some .add
  | 3 => some .sub
  | 4 => some .and
  | 5 => some .or
  | 6 => some .xor
  | 7 => some .ant
  | 8 => some .sl
  | 9 => some .srl
  | 10 => some .sra
  | 11 => some .sru
  | 12 => some .sre
  | _ => none

/-- The text mnemonic of an opcode (R73). -/
def Opcode.mnemonic : Opcode → List Char
  | .mnz => ['M', 'N', 'Z']
  | .mlz => ['M', 'L', 'Z']
  | .add => ['A', 'D', 'D']
  | .sub => ['S', 'U', 'B']
  | .and => ['A', 'N', 'D']
  | .or => ['O', 'R']
  | .xor => ['X', 'O', 'R']
  | .ant => ['A', 'N', 'T']
  | .sl => ['S', 'L']
  | .srl => ['S', 'R', 'L']
  | .sra => ['S', 'R', 'A']
  | .sru => ['S', 'R', 'U']
  | .sre => ['S', 'R', 'E']

/-- The 13 opcodes, in the document's order (R2). -/
def opcodes : List Opcode :=
  [.mnz, .mlz, .add, .sub, .and, .or, .xor, .ant, .sl, .srl, .sra, .sru, .sre]

/-- The opcode a whole upper-case token names, if any (R74). -/
def opcodeOfToken (t : List Char) : Option Opcode :=
  opcodes.find? fun op => op.mnemonic == t

/-- A mode's two-bit field, the depth in binary (R83). -/
def Mode.field : Mode → BitVec 2
  | .imm => 0
  | .a => 1
  | .b => 2
  | .c => 3

/-- The mode of a two-bit field; all four are legal (R83). -/
def modeOfField (f : BitVec 2) : Mode :=
  match f.toNat with
  | 0 => .imm
  | 1 => .a
  | 2 => .b
  | _ => .c

/-! ### Rejections -/

/-- Why a text line is malformed (R89). Every one raises the same `DecodeError`; the names are the model's own
(log entry 12). -/
inductive LineError where
  /-- No line number, or one not followed by `.` and whitespace (R76). -/
  | lineNumber
  /-- The opcode token is not one of the thirteen (R74). -/
  | opcode
  /-- An operand is missing, ill formed, or not set off by whitespace (R75). -/
  | operand
  /-- Text after the third operand that is no comment (R77). -/
  | tail
  deriving DecidableEq, Repr

/-- Why a fetched ROM line has no instruction. -/
inductive Reject where
  /-- A text line outside the grammar (R89). -/
  | malformed (e : LineError)
  /-- A word whose opcode field is 13, 14 or 15 (R90). -/
  | illegalOpcode (field : BitVec 4)
  deriving DecidableEq, Repr

/-! ### The decoded instruction word (R81, R85) -/

/-- R85 `decode_word`: cut the word into its fields (R81) and look the opcode up. -/
def decodeWord (w : Diw) : Except Reject Instr :=
  let opc := w.extractLsb' 54 4
  let o1 : Operand := ⟨modeOfField (w.extractLsb' 52 2), w.extractLsb' 36 16⟩
  let o2 : Operand := ⟨modeOfField (w.extractLsb' 34 2), w.extractLsb' 18 16⟩
  let o3 : Operand := ⟨modeOfField (w.extractLsb' 16 2), w.extractLsb' 0 16⟩
  match opcodeOfField opc with
  | some op => .ok (op.instr o1 o2 o3)
  | none => .error (.illegalOpcode opc)

/-! ### The line grammar (R73 to R78) -/

/-- `ws`: a space or a tab (R73). -/
def isWs (ch : Char) : Bool := ch == ' ' || ch == '\t'

/-- `ws+`: at least one `ws`, and all that follow it. -/
def skipWs : List Char → Option (List Char)
  | ch :: rest => if isWs ch then some (rest.dropWhile isWs) else none
  | [] => none

/-- The value of a run of decimal digits, of any length (R78). -/
def digitsValue (ds : List Char) : Nat :=
  ds.foldl (fun n d => 10 * n + (d.toNat - '0'.toNat)) 0

/-- `digit { digit }` and what follows (R73). -/
def takeDigits (cs : List Char) : Option (Nat × List Char) :=
  match cs.takeWhile Char.isDigit with
  | [] => none
  | d :: ds => some (digitsValue (d :: ds), cs.dropWhile Char.isDigit)

/-- `[ "-" ] digit { digit }` and what follows (R73, R75). -/
def takeInt : List Char → Option (Int × List Char)
  | '-' :: rest => (takeDigits rest).map fun r => (-(r.1 : Int), r.2)
  | cs => (takeDigits cs).map fun r => ((r.1 : Int), r.2)

/-- The optional mode letter and what follows (R75). -/
def takeMode : List Char → Mode × List Char
  | 'A' :: rest => (.a, rest)
  | 'B' :: rest => (.b, rest)
  | 'C' :: rest => (.c, rest)
  | cs => (.imm, cs)

/-- An operand token; its literal is carried modulo 65536 (R75, R78). -/
def takeOperand (cs : List Char) : Option (Operand × List Char) :=
  let m := takeMode cs
  (takeInt m.2).map fun r => (⟨m.1, BitVec.ofInt 16 r.1⟩, r.2)

/-- `lineno "." ws+`; the number's value is discarded (R76). -/
def takeLineNumber (cs : List Char) : Option (List Char) :=
  match takeDigits cs with
  | some (_, '.' :: rest) => skipWs rest
  | _ => none

/-- The opcode as a whole token, with the `ws+` after it (R74). -/
def takeOpcode (cs : List Char) : Option (Opcode × List Char) :=
  match opcodeOfToken (cs.takeWhile fun ch => !isWs ch), skipWs (cs.dropWhile fun ch => !isWs ch) with
  | some op, some rest => some (op, rest)
  | _, _ => none

/-- An operand with the `ws+` after it. -/
def takeOperandWs (cs : List Char) : Option (Operand × List Char) :=
  match takeOperand cs with
  | some (o, rest) => (skipWs rest).map fun rest' => (o, rest')
  | none => none

/-- `ws* [ ";" rest ]`: nothing, or a comment, which is discarded (R77). -/
def tailOk (cs : List Char) : Bool :=
  match cs.dropWhile isWs with
  | [] => true
  | ch :: _ => ch == ';'

/-- The line grammar of R73, with the rejections of R89. -/
def decodeText (line : List Char) : Except Reject Instr :=
  match takeLineNumber (line.dropWhile isWs) with
  | none => .error (.malformed .lineNumber)
  | some cs =>
    match takeOpcode cs with
    | none => .error (.malformed .opcode)
    | some (op, cs) =>
      match takeOperandWs cs with
      | none => .error (.malformed .operand)
      | some (o1, cs) =>
        match takeOperandWs cs with
        | none => .error (.malformed .operand)
        | some (o2, cs) =>
          match takeOperand cs with
          | none => .error (.malformed .operand)
          | some (o3, cs) =>
            if tailOk cs then .ok (op.instr o1 o2 o3) else .error (.malformed .tail)

/-- Both forms of a ROM line denote a decoded instruction (R71). -/
def decodeLine : RomLine → Except Reject Instr
  | .text line => decodeText line
  | .word w => decodeWord w

/-! ### From ROM text to lines (R72) -/

/-- Drop a CR that stands immediately before the LF; the line is held last character first. -/
def dropCr : List Char → List Char
  | '\r' :: rest => rest
  | cs => cs

/-- Cut a text at each LF; `acc` is the line so far, last character first. -/
def splitLines (acc : List Char) : List Char → List (List Char)
  | [] => [acc.reverse]
  | ch :: rest =>
    if ch = '\n' then (dropCr acc).reverse :: splitLines [] rest else splitLines (ch :: acc) rest

/-- The lines of a ROM text, without the empty and the blank ones (R72). -/
def romTextLines (file : List Char) : List (List Char) :=
  (splitLines [] file).filter fun line => !line.all isWs

/-! ### Encoders -/

/-- R85 `encode`: the fields of R81, most significant first. -/
def encode (i : Instr) : Diw :=
  let o1 := i.operands.1
  let o2 := i.operands.2.1
  let o3 := i.operands.2.2
  i.opcode.field ++ o1.mode.field ++ o1.lit ++ o2.mode.field ++ o2.lit ++ o3.mode.field ++ o3.lit

/-- The decimal digit of a number's last place. -/
def lastDigit (n : Nat) : Char := Char.ofNat ('0'.toNat + n % 10)

/-- A literal as five decimal digits; leading zeros are allowed (R75). -/
def renderLit (w : Word) : List Char :=
  let n := w.toNat
  [lastDigit (n / 10000), lastDigit (n / 1000), lastDigit (n / 100), lastDigit (n / 10), lastDigit n]

/-- A mode's letter (R75). -/
def renderMode : Mode → List Char
  | .imm => []
  | .a => ['A']
  | .b => ['B']
  | .c => ['C']

/-- An operand in the text form. -/
def renderOperand (o : Operand) : List Char := renderMode o.mode ++ renderLit o.lit

/-- A text line of the grammar of R73 for an instruction. The line number 0, the single spaces and the
five-digit literals are the model's own choice among the spellings R73 admits. -/
def renderLine (i : Instr) : List Char :=
  ['0', '.', ' '] ++ i.opcode.mnemonic ++ [' '] ++ renderOperand i.operands.1 ++ [' ']
    ++ renderOperand i.operands.2.1 ++ [' '] ++ renderOperand i.operands.2.2

/-! ### The host's view of the opcode table -/

/-- What the decoder reads from a table word: the word is one ROM line, and an integer of 2^58 or more is no
line at all (R86). The table gives every row its whole 58 bits, so `nbits` adds none. -/
def decodeTableWord (_nbits w : Nat) : Option Instr :=
  if w < 2 ^ 58 then
    match decodeWord (BitVec.ofNat 58 w) with
    | .ok i => some i
    | .error _ => none
  else none

end Sys2Proof
end

