-- ==== Sys2Proof/Config.lean ====
section
/-! DEFINITION. The implementation parameters the document leaves open (spec/00_scope.md R11, R12).
They are plain data that a launch fixes, so a statement over all states holds for every configuration. -/

namespace Sys2Proof

/-- The OPEN parameters of R11 (`MEM0`, the power-on memory, is a launch input of its own). -/
structure Config where
  /-- `N_ADDR = 2 ^ (window + 2)`: exactly the powers of two from 4 to 65536 that R12 admits. -/
  window   : Fin 15
  /-- `IN_BASE`, the first address the loader writes input words to (R238). -/
  inBase   : Int
  /-- `OUT_BASE`, the highest address of the output region (R243). -/
  outBase  : Int
  /-- `HEAP_TOP`, the lower bound, exclusive, of the overflow band (R49). -/
  heapTop  : Int
  /-- `NEG_LOW`, the upper bound, exclusive, of the overflow band (R49). -/
  negLow   : Int
  /-- `NEGBUF_LO`, the lower bound, inclusive, of the negative buffer (R49). -/
  negBufLo : Int
  /-- `NEGBUF_HI`, the upper bound, inclusive, of the negative buffer (R49). -/
  negBufHi : Int
  deriving DecidableEq, Repr

/-- `N_ADDR`, the number of installed memory cells (R11, R12). -/
def Config.nAddr (c : Config) : Nat := 2 ^ (c.window.val + 2)

/-- The configuration of `State.reset`: the window, input base and output base of
spec/95_test_vectors.md, and bands that flag no address.
DESIGN CHOICE (log entry 2), unsafe: the spec leaves every one of these open. -/
def Config.vectors : Config :=
  { window := 8, inBase := 100, outBase := 1000
    heapTop := 65535, negLow := 65536, negBufLo := 65536, negBufHi := 65535 }

end Sys2Proof
end

