-- ==== Sys2Proof/Machine/State.lean ====
section
/-! DEFINITION. The machine's state (spec/10_state.md R21), its reset value (R40), and the reasons the host's
operations around the core can stop. -/

namespace Sys2Proof.Machine

/-- Cells of one width by index: (index, value) pairs, indices strictly rising, no entry equal to what an
unlisted cell reads as. -/
abbrev Cells (w : Nat) := List (Nat × BitVec w)

/-- What an unlisted cell reads as. For counters it is the reset value (R40). For memory it is the power-on
value `MEM0`, which the spec leaves OPEN and a launch supplies; DESIGN CHOICE (log entry 3), unsafe. -/
def Cells.unlisted (w : Nat) : BitVec w := 0

/-- `M`: the memory array, which is also the register file (R22, R23). -/
abbrev Memory := Cells 16

/-- `CNT`: one 64-bit access counter per cell (R36). -/
abbrev Counters := Cells 64

/-- The canonical form, for cells of any width. -/
abbrev Cells.wf {w : Nat} (m : Cells w) : Prop :=
  m.Pairwise (fun x y => x.1 < y.1) ∧ ∀ x ∈ m, x.2 ≠ Cells.unlisted w

/-- Memory's canonical form. -/
abbrev Memory.wf (m : Memory) : Prop := Cells.wf m

/-- Every listed cell lies in the window of `n` cells (R22). -/
abbrev Cells.inWindow {w : Nat} (n : Nat) (m : Cells w) : Prop := ∀ x ∈ m, x.1 < n

/-- `wb`, the pending write-back register (R30). -/
structure WriteBack where
  active : Bool
  value  : Word
  dest   : Word
  deriving DecidableEq, Repr

/-- `run`, the run state (R32). -/
inductive RunState where
  | running
  | halted
  | faulted
  deriving DecidableEq, Repr

/-- `cause`, why the machine stopped (R33). -/
inductive Cause where
  /-- Running or halted. -/
  | none
  /-- A fetched text line is not in the grammar (R202). -/
  | decodeError
  /-- A fetched word has opcode field 13, 14 or 15 (R203). -/
  | illegalEncoding
  /-- The input stream could not be read at load (R204). -/
  | inputError
  deriving DecidableEq, Repr

/-- The numbers of the causes (R33). -/
def Cause.code : Cause → Nat
  | .none => 0
  | .decodeError => 1
  | .illegalEncoding => 2
  | .inputError => 3

/-- A bounds warning: address, origin instruction's PC, cycle count (R50). -/
structure Warning where
  address : Word
  pc      : Word
  cycle   : Nat
  deriving DecidableEq, Repr

/-- The machine's state: the configuration a launch fixed, the architectural state of R21 (`mem`, `wb`, `run`,
`cause`, `rom`) and the diagnostic state of R21 (`cnt`, `steps`, `warnings`, oldest first). The program counter
is memory cell 0 (R25) and has no field of its own. -/
structure State where
  cfg      : Config
  mem      : Memory
  wb       : WriteBack
  run      : RunState
  cause    : Cause
  rom      : List RomLine
  cnt      : Counters
  steps    : Nat
  warnings : List Warning
  deriving DecidableEq, Repr

/-- The machine at reset (R40, R231) with the configuration, the power-on memory `MEM0` and the ROM that the host
supplies; `mem0` must not list cell 0, whose reset value is 0. -/
def State.powerOn (cfg : Config) (mem0 : Memory) (rom : List RomLine) : State :=
  { cfg := cfg, mem := mem0, wb := { active := false, value := 0, dest := 0 }
    run := .running, cause := .none, rom := rom, cnt := [], steps := 0, warnings := [] }

/-- The machine right after reset, before the host has supplied a ROM: every field at the value of R40. The
configuration, `MEM0` and the empty ROM are the model's choices (log entries 2, 3 and 5). -/
def State.reset : State := State.powerOn Config.vectors [] []

/-- Why the host ends a run as failed. No step of the core answers a fault: a core that detects an error enters
the `faulted` run state, which is a next state (R207; log entry 7). -/
inductive Fault where
  /-- Raised by `hostReadout` on a machine that ended `faulted`: no output, the cause is reported, the host exits
  non-zero (R208, R241). Raised by `launch` for an input error (R236) whose window or ROM no state can hold (log entry 11).
  Safe: the spec gives such a run no output. -/
  | failedRun (cause : Cause)
  deriving DecidableEq, Repr

/-- Why a request is turned away. -/
inductive Refusal where
  /-- Raised by `exec` for an instruction without a meaning. Safe. No arm of this model raises it. -/
  | notModelled (mnemonic : String)
  /-- Raised by `launch`: `N_ADDR` is not a power of two from 4 to 65536 (R12, R235). Safe: the spec refuses it. -/
  | windowSize (nAddr : Nat)
  /-- Raised by `launch`: a pre-decoded line is no integer in 0 .. 2^58 - 1 (R86, R235). Safe: the spec refuses it. -/
  | romWord (w : Int)
  /-- Raised by `launch`: an input word would land on cell 0 (R235). Safe: the spec refuses it. -/
  | inputOnPc
  /-- Raised by `hostReadout` on a machine still running, which has no output yet (R243, R246). Safe. -/
  | stillRunning
  deriving DecidableEq, Repr

end Sys2Proof.Machine
end

