-- ==== Sys2Proof/Machine/Ops.lean ====
section
/-! DEFINITION. The named operations over memory, counters, warnings, the pending write-back and the run state
(spec/20_memory.md, spec/40_sequencer.md, spec/60_exceptions.md). -/

namespace Sys2Proof.Machine

/-! ### Cells in canonical form -/

/-- The value of cell `i`. -/
def Cells.get {w : Nat} : Cells w → Nat → BitVec w
  | [], _ => Cells.unlisted w
  | (j, v) :: rest, i => if j = i then v else Cells.get rest i

/-- Put an entry before the first one of a higher index. -/
def Cells.put {w : Nat} (i : Nat) (v : BitVec w) : Cells w → Cells w
  | [] => [(i, v)]
  | (j, u) :: rest => if i < j then (i, v) :: (j, u) :: rest else (j, u) :: Cells.put i v rest

/-- Cell `i` set to `v`, keeping the canonical form. -/
def Cells.set {w : Nat} (m : Cells w) (i : Nat) (v : BitVec w) : Cells w :=
  let others := m.filter fun x => x.1 != i
  if v = Cells.unlisted w then others else Cells.put i v others

/-! ### Addresses, memory reads and writes (R41 to R44) -/

/-- The cell an integer address selects: its non-negative residue modulo `N_ADDR` (R13, R43; log entry 22). -/
def cellIndex (c : Config) (addr : Int) : Nat := (addr % (c.nAddr : Int)).toNat

/-- `M[i]`, looked at without an access. -/
def State.cell (s : State) (i : Nat) : Word := Cells.get s.mem i

/-- `CNT[i]`. -/
def State.count (s : State) (i : Nat) : BitVec 64 := Cells.get s.cnt i

/-- One access counted on cell `i`, modulo 2^64 (R36, R44). -/
def State.bump (i : Nat) (s : State) : State := { s with cnt := Cells.set s.cnt i (s.count i + 1) }

/-- `MemRead(addr, 1)` (R41). -/
def State.memRead (addr : Int) (s : State) : Word × State :=
  let i := cellIndex s.cfg addr
  (s.cell i, s.bump i)

/-- `MemWrite(addr, 1, v)`: the value is stored modulo 65536 (R42). -/
def State.memWrite (addr : Int) (v : Nat) (s : State) : State :=
  let i := cellIndex s.cfg addr
  { s.bump i with mem := Cells.set s.mem i (BitVec.ofNat 16 v) }

/-- The program counter: cell 0 (R25). -/
def State.pc (s : State) : Word := s.cell 0

/-! ### Bounds warnings (R49, R50) -/

/-- Is a raw address in a flagged band (R49)? -/
def flagged (c : Config) (raw : Word) : Bool :=
  let r : Int := raw.toNat
  (c.heapTop < r && r < c.negLow) || (c.negBufLo ≤ r && r ≤ c.negBufHi)

/-- `bounds_check(raw)`: append a warning or do nothing (R49, R50). -/
def State.boundsCheck (origin raw : Word) (s : State) : State :=
  if flagged s.cfg raw then
    { s with warnings := s.warnings ++ [{ address := raw, pc := origin, cycle := s.steps }] }
  else s

/-! ### The steps of a cycle other than resolve and compute (R114, R118 to R120) -/

/-- Step 3, commit: write the pending result of the previous cycle, if any (R114). -/
def State.commit (s : State) : State :=
  if s.wb.active then s.memWrite s.wb.dest.toNat s.wb.value.toNat else s

/-- What the ALU gives: `(we, v, d)`, with `v` an unbounded natural number (R116, R171). -/
structure AluOut where
  write : Bool
  value : Nat
  dest  : Word
  deriving DecidableEq, Repr

/-- The end of step 5: the ALU's output becomes the pending write-back, its value modulo 65536 (R31, R118). -/
def State.setPending (r : AluOut) (s : State) : State :=
  { s with wb := { active := r.write, value := BitVec.ofNat 16 r.value, dest := r.dest } }

/-- Step 6, advance the PC through the ordinary read and write path (R29, R119). -/
def State.advance (s : State) : State :=
  let p := s.memRead 0
  p.2.memWrite 0 ((p.1.toNat + 1) % wordSize)

/-- Step 7, count the cycle (R120). -/
def State.countStep (s : State) : State := { s with steps := s.steps + 1 }

/-! ### Leaving the running state -/

/-- The halting fetch: nothing else changes (R112, R122). -/
def State.halt (s : State) : State := { s with run := .halted }

/-- Taking a fault, the one exception entry of this machine: the run state and the cause change and nothing
else does (R207). No register is saved and there is no vector (R213), and no return exists (R209, R214). -/
def State.takeFault (c : Cause) (s : State) : State := { s with run := .faulted, cause := c }

/-- The cause a rejected line raises (R113, R202, R203). -/
def rejectCause : Reject → Cause
  | .malformed _ => .decodeError
  | .illegalOpcode _ => .illegalEncoding

/-! ### Steps 1 and 2: fetch and decode (R112, R113) -/

/-- What a fetch ends in. -/
inductive Fetched where
  /-- The PC is at or beyond the ROM's end. -/
  | halt (s : State)
  /-- The line has no instruction. -/
  | fault (s : State)
  /-- The line's instruction, and the state after step 1. -/
  | run (i : Instr) (s : State)
  deriving DecidableEq, Repr

/-- Steps 1 and 2: read the PC through `MemRead`, halt if it is at least `L`, else decode the line; a fault is
taken before the commit of step 3 (R112, R113, R210). -/
def State.fetch (s : State) : Fetched :=
  let r := s.memRead 0
  if s.rom.length ≤ r.1.toNat then .halt r.2.halt
  else
    match s.rom[r.1.toNat]? with
    | none => .halt r.2.halt
    | some line =>
      match decodeLine line with
      | .ok i => .run i r.2
      | .error e => .fault (r.2.takeFault (rejectCause e))

/-! ### Placing one ROM line for the host -/

/-- A ROM in which line `p` is `line`: the line is replaced, or, past the end, no-op lines `MNZ 0 0 0` (R91) fill the
gap before it. -/
def placeLine (rom : List RomLine) (p : Nat) (line : RomLine) : List RomLine :=
  if p < rom.length then rom.set p line
  else rom ++ List.replicate (p - rom.length) (.word 0) ++ [line]

end Sys2Proof.Machine
end

