-- ==== Sys2Proof/Machine/Operands.lean ====
section
/-! DEFINITION. The addressing resolver, all four modes (spec/20_memory.md R45 to R53). -/

namespace Sys2Proof.Machine

/-- `n` dereferences from the value `v`, each preceded by its bounds check (R45, R49). -/
def derefs (origin : Word) : Nat → Word → State → Word × State
  | 0, v, s => (v, s)
  | n + 1, v, s =>
    let r := (s.boundsCheck origin v).memRead v.toNat
    derefs origin n r.1 r.2

/-- `resolve(m, l)`: mode 0 is the literal and touches nothing; mode `m` dereferences `m` times (R45 to R47).
`origin` is the PC the cycle fetched, which a warning reports. -/
def State.resolve (origin : Word) (o : Operand) (s : State) : Word × State :=
  derefs origin o.mode.depth o.lit s

end Sys2Proof.Machine
end

