-- ==== Sys2Proof/Machine/Cycle.lean ====
section
/-! DEFINITION. Steps 3 to 7 of a cycle, shared by every instruction (spec/40_sequencer.md R111). -/

namespace Sys2Proof.Machine

/-- Steps 3 to 7 with the ALU arm `alu`: commit, resolve operands 1, 2, 3 in that order (R51, R115), compute,
advance, count. Before the commit cell 0 still holds the PC that step 1 fetched, `pc_origin` (R27, R111). -/
def executeCycle (alu : Word → Word → Word → AluOut) (o1 o2 o3 : Operand) (s : State) :
    Host.Outcome State Fault Refusal :=
  let origin := s.pc
  let a := s.commit.resolve origin o1
  let b := a.2.resolve origin o2
  let c := b.2.resolve origin o3
  .next ((c.2.setPending (alu a.1 b.1 c.1)).advance.countStep)

/-- An ALU arm that always writes its value to `c` (R117). -/
def alwaysWrites (f : Word → Word → Nat) (a b c : Word) : AluOut :=
  { write := true, value := f a b, dest := c }

end Sys2Proof.Machine
end

