-- ==== Sys2Proof/Machine/Arithmetic.lean ====
section
/-! DEFINITION. The arithmetic instructions ADD and SUB (spec/42_arithmetic.md R151 to R153). -/

namespace Sys2Proof.Machine

/-- `(a + b) mod 65536` (R151). -/
def addValue (a b : Word) : Nat := (a.toNat + b.toNat) % wordSize

/-- `(a - b + 65536) mod 65536`, computed as `a + 65536 - b`, which is never negative (R152). -/
def subValue (a b : Word) : Nat := (a.toNat + wordSize - b.toNat) % wordSize

/-- ADD (R151). -/
def execAdd (o1 o2 o3 : Operand) (s : State) : Host.Outcome State Fault Refusal :=
  executeCycle (alwaysWrites addValue) o1 o2 o3 s

/-- SUB (R152). -/
def execSub (o1 o2 o3 : Operand) (s : State) : Host.Outcome State Fault Refusal :=
  executeCycle (alwaysWrites subValue) o1 o2 o3 s

end Sys2Proof.Machine
end

