-- ==== Sys2Proof/Machine/Flags.lean ====
section
/-! DEFINITION. The machine has no flags, condition codes or predicates (spec/10_state.md R38): no instruction writes
one. What it has is the two conditions that MNZ and MLZ test on their first resolved operand
(spec/41_conditional_move.md R143). -/

namespace Sys2Proof.Machine

/-- The condition of `MNZ`: the value is not zero (R141). -/
def isNonZero (a : Word) : Bool := a != 0

/-- The condition of `MLZ`: bit 15 is set (R142). -/
def isNegative (a : Word) : Bool := a.getLsbD 15

end Sys2Proof.Machine
end

