-- ==== Sys2Proof/Machine/ConditionalMove.lean ====
section
/-! DEFINITION. The conditional moves MNZ and MLZ (spec/41_conditional_move.md R141 to R143). -/

namespace Sys2Proof.Machine

/-- `ALU(MNZ, a, b, c) = (a != 0, b, c)` (R141). -/
def aluMnz (a b c : Word) : AluOut := { write := isNonZero a, value := b.toNat, dest := c }

/-- `ALU(MLZ, a, b, c) = (a[15] == 1, b, c)` (R142). -/
def aluMlz (a b c : Word) : AluOut := { write := isNegative a, value := b.toNat, dest := c }

/-- MNZ (R141). -/
def execMnz (o1 o2 o3 : Operand) (s : State) : Host.Outcome State Fault Refusal :=
  executeCycle aluMnz o1 o2 o3 s

/-- MLZ (R142). -/
def execMlz (o1 o2 o3 : Operand) (s : State) : Host.Outcome State Fault Refusal :=
  executeCycle aluMlz o1 o2 o3 s

end Sys2Proof.Machine
end

