-- ==== Sys2Proof/Machine/Logical.lean ====
section
/-! DEFINITION. The bitwise instructions AND, OR, XOR, ANT (spec/43_logical.md R161 to R164). -/

namespace Sys2Proof.Machine

/-- `a & b` (R161). -/
def andValue (a b : Word) : Nat := a.toNat &&& b.toNat

/-- `a | b` (R162). -/
def orValue (a b : Word) : Nat := a.toNat ||| b.toNat

/-- `a ^ b` (R163). -/
def xorValue (a b : Word) : Nat := a.toNat ^^^ b.toNat

/-- `a & ~16(b)`, with `~16(b) = 65535 - b` (R15, R164). -/
def antValue (a b : Word) : Nat := a.toNat &&& (65535 - b.toNat)

/-- AND (R161). -/
def execAnd (o1 o2 o3 : Operand) (s : State) : Host.Outcome State Fault Refusal :=
  executeCycle (alwaysWrites andValue) o1 o2 o3 s

/-- OR (R162). -/
def execOr (o1 o2 o3 : Operand) (s : State) : Host.Outcome State Fault Refusal :=
  executeCycle (alwaysWrites orValue) o1 o2 o3 s

/-- XOR (R163). -/
def execXor (o1 o2 o3 : Operand) (s : State) : Host.Outcome State Fault Refusal :=
  executeCycle (alwaysWrites xorValue) o1 o2 o3 s

/-- ANT (R164). -/
def execAnt (o1 o2 o3 : Operand) (s : State) : Host.Outcome State Fault Refusal :=
  executeCycle (alwaysWrites antValue) o1 o2 o3 s

end Sys2Proof.Machine
end

