-- ==== Sys2Proof/Machine/Shift.lean ====
section
/-! DEFINITION. The shift instructions SL, SRL, SRA, SRU, SRE (spec/44_shift.md R171 to R175). The amount is a whole
16-bit value and is not reduced. -/

namespace Sys2Proof.Machine

/-- `a << b`, unbounded; the pending register keeps it modulo 65536 (R31, R171). -/
def slValue (a b : Word) : Nat := a.toNat <<< b.toNat

/-- `a >> b`, logical (R172). -/
def srlValue (a b : Word) : Nat := a.toNat >>> b.toNat

/-- `(a & 0x80) ^ ((a & 0x7F) >> b)`, the document's 8-bit formula as written (R173). -/
def sraValue (a b : Word) : Nat := (a.toNat &&& 0x80) ^^^ ((a.toNat &&& 0x7F) >>> b.toNat)

/-- `b >> 1`; `a` is ignored (R174). -/
def sruValue (_a b : Word) : Nat := b.toNat >>> 1

/-- `b >> 8`; `a` is ignored (R175). -/
def sreValue (_a b : Word) : Nat := b.toNat >>> 8

/-- SL (R171). -/
def execSl (o1 o2 o3 : Operand) (s : State) : Host.Outcome State Fault Refusal :=
  executeCycle (alwaysWrites slValue) o1 o2 o3 s

/-- SRL (R172). -/
def execSrl (o1 o2 o3 : Operand) (s : State) : Host.Outcome State Fault Refusal :=
  executeCycle (alwaysWrites srlValue) o1 o2 o3 s

/-- SRA (R173). -/
def execSra (o1 o2 o3 : Operand) (s : State) : Host.Outcome State Fault Refusal :=
  executeCycle (alwaysWrites sraValue) o1 o2 o3 s

/-- SRU (R174). -/
def execSru (o1 o2 o3 : Operand) (s : State) : Host.Outcome State Fault Refusal :=
  executeCycle (alwaysWrites sruValue) o1 o2 o3 s

/-- SRE (R175). -/
def execSre (o1 o2 o3 : Operand) (s : State) : Host.Outcome State Fault Refusal :=
  executeCycle (alwaysWrites sreValue) o1 o2 o3 s

end Sys2Proof.Machine
end

