-- ==== Sys2Proof/Machine/Dispatch.lean ====
section
/-! DEFINITION. The dispatch from instructions to their meanings, one arm per row of spec/opcode_table.json. -/

namespace Sys2Proof.Machine

def exec (i : Instr) (s : State) : Host.Outcome State Fault Refusal :=
  match i with
  | .mnz o1 o2 o3 => Sys2Proof.Machine.execMnz o1 o2 o3 s
  | .mlz o1 o2 o3 => Sys2Proof.Machine.execMlz o1 o2 o3 s
  | .add o1 o2 o3 => Sys2Proof.Machine.execAdd o1 o2 o3 s
  | .sub o1 o2 o3 => Sys2Proof.Machine.execSub o1 o2 o3 s
  | .and o1 o2 o3 => Sys2Proof.Machine.execAnd o1 o2 o3 s
  | .or o1 o2 o3 => Sys2Proof.Machine.execOr o1 o2 o3 s
  | .xor o1 o2 o3 => Sys2Proof.Machine.execXor o1 o2 o3 s
  | .ant o1 o2 o3 => Sys2Proof.Machine.execAnt o1 o2 o3 s
  | .sl o1 o2 o3 => Sys2Proof.Machine.execSl o1 o2 o3 s
  | .srl o1 o2 o3 => Sys2Proof.Machine.execSrl o1 o2 o3 s
  | .sra o1 o2 o3 => Sys2Proof.Machine.execSra o1 o2 o3 s
  | .sru o1 o2 o3 => Sys2Proof.Machine.execSru o1 o2 o3 s
  | .sre o1 o2 o3 => Sys2Proof.Machine.execSre o1 o2 o3 s

end Sys2Proof.Machine
end

