-- ==== Sys2Proof/Machine/Step.lean ====
section
/-! DEFINITION. One step of the machine: one atomic cycle of a running machine (spec/40_sequencer.md R111). -/

namespace Sys2Proof.Machine

/-- One cycle. A halted or faulted machine executes no cycle and stays as it is (R32, R209; that such a step
answers the same state is the model's choice, log entry 6). -/
def step (s : State) : Host.Outcome State Fault Refusal :=
  match s.run with
  | .halted => .next s
  | .faulted => .next s
  | .running =>
    match s.fetch with
    | .halt s' => .next s'
    | .fault s' => .next s'
    | .run i s' => exec i s'

/-- `s` made ready to fetch the table word `w` in its next step: the word is the ROM line at the PC, and the machine
runs (log entry 18). An integer of 2^58 or more is no ROM line (R86), so it places nothing. -/
def State.withFetchWord (s : State) (_nbits w : Nat) : State :=
  if w < 2 ^ 58 then
    { s with rom := placeLine s.rom s.pc.toNat (.word (BitVec.ofNat 58 w)), run := .running, cause := .none }
  else s

end Sys2Proof.Machine
end

