-- ==== Sys2Proof/Machine/Diagnostics.lean ====
section
/-! DEFINITION. What the host can read of a machine beside its output: the record of a fault and the end-of-run summary
(spec/60_exceptions.md R201 to R204, R220). -/

namespace Sys2Proof.Machine

/-- What a fault records (R201). -/
inductive FaultRecord where
  /-- PC of the line and the line text (R202). -/
  | decodeError (pc : Word) (line : List Char)
  /-- PC of the line and the word (R203). -/
  | illegalEncoding (pc : Word) (word : Diw)
  /-- Nothing is recorded (R204). -/
  | inputError
  deriving DecidableEq, Repr

/-- The record of a faulted machine, read off its state: cell 0 still holds the index of the faulting line (R207), and the
ROM still holds the line (log entry 8). -/
def State.faultRecord (s : State) : Option FaultRecord :=
  match s.run, s.cause, s.rom[s.pc.toNat]? with
  | .faulted, .decodeError, some (.text line) => some (.decodeError s.pc line)
  | .faulted, .illegalEncoding, some (.word w) => some (.illegalEncoding s.pc w)
  | .faulted, .inputError, _ => some .inputError
  | _, _, _ => none

/-- The fields of the end-of-run summary whose content the spec fixes (R220). -/
structure Summary where
  steps          : Nat
  distinctCells  : Nat
  highestTouched : Option Nat
  deriving DecidableEq, Repr

/-- The cells with a counter above zero, in rising order (R220). -/
def State.touchedCells (s : State) : List Nat :=
  (List.range s.cfg.nAddr).filter fun i => s.count i != 0

/-- The end-of-run summary (R220). -/
def State.summary (s : State) : Summary :=
  { steps := s.steps, distinctCells := s.touchedCells.length, highestTouched := s.touchedCells.getLast? }

end Sys2Proof.Machine
end

