-- ==== Sys2Proof/Machine/Codec.lean ====
section
/-! DEFINITION. The I/O codec, the host's side of the core: packing the input into memory before cycle 0 and reading the
output after the run (spec/70_reset_and_hazards.md R236 to R245). -/

namespace Sys2Proof.Machine

/-- Input bytes as words, `B[2k] | (B[2k+1] << 8)`: first byte low, second byte high, a zero byte added to an odd
stream (R237). -/
def packWords : List Byte → List Word
  | [] => []
  | [b] => [b.setWidth 16]
  | lo :: hi :: rest => (lo.setWidth 16 ||| (hi.setWidth 16 <<< 8)) :: packWords rest

/-- Words written one after another at rising addresses (R238). -/
def loadWords : Int → List Word → State → State
  | _, [], s => s
  | addr, w :: rest, s => loadWords (addr + 1) rest (s.memWrite addr w.toNat)

/-- `n` cells read from `addr` downwards, the low byte of each (R243). -/
def readDown : Nat → Int → State → List Byte × State
  | 0, _, s => ([], s)
  | n + 1, addr, s =>
    let r := s.memRead addr
    let rest := readDown n (addr - 1) r.2
    (r.1.extractLsb' 0 8 :: rest.1, rest.2)

/-- `readout()`: the cells from `OUT_BASE` down to `M[2] + 1`, none when `M[2] + 1 > OUT_BASE`; `M[2]` itself is looked
at without an access (R242, R243; log entry 23). -/
def State.readout (s : State) : List Byte × State :=
  readDown (s.cfg.outBase - (s.cell 2).toNat).toNat s.cfg.outBase s

/-- What the host does with a machine at the end of a run: the output of a halted one (R243, R245); the cause of a
faulted one, with no output (R208, R241); nothing of a running one (R246). -/
def hostReadout (s : State) : Host.Outcome (List Byte × State) Fault Refusal :=
  match s.run with
  | .halted => .next s.readout
  | .faulted => .fault (.failedRun s.cause)
  | .running => .refused .stillRunning

end Sys2Proof.Machine
end

