-- ==== Sys2Proof/WellFormed.lean ====
section
/-! DEFINITION. The checks the spec makes on what the host supplies.
Every term of `Instr` is well formed by its types, because every mode and every 16-bit literal is legal in
every operand of every opcode (spec/30_encoding.md R83, R90). What can be ill formed is a window size (R12),
an integer given as a pre-decoded line (R86) and a word's opcode field (R90). -/

namespace Sys2Proof

/-- The window a given `N_ADDR` selects, if it is a power of two from 4 to 65536 (R12). -/
def windowOf (nAddr : Nat) : Option (Fin 15) :=
  (List.finRange 15).find? fun k => 2 ^ (k.val + 2) == nAddr

/-- R12: `N_ADDR` is one the machine may have. -/
def legalWindow (nAddr : Nat) : Bool := (windowOf nAddr).isSome

/-- R86: a pre-decoded line is an integer `w` with `0 <= w < 2^58`. -/
def legalRomWord (w : Int) : Bool := 0 ≤ w && w < 2 ^ 58

/-- R90: a word is legal exactly when its opcode field, bits 57 to 54, is 0 to 12. -/
def legalDiw (w : Diw) : Bool := w.toNat / 2 ^ 54 < 13

end Sys2Proof
end

