-- ==== Sys2Proof/Machine/Launch.lean ====
section
/-! DEFINITION. The launch: reset, ROM, input loader, launch checks (spec/70_reset_and_hazards.md R232 to R238). -/

namespace Sys2Proof.Machine

/-- The ROM as the host supplies it (R233). -/
inductive RomSource where
  /-- A text file, as its characters. -/
  | text (file : List Char)
  /-- Pre-decoded lines, as integers (R86). -/
  | words (ws : List Int)
  deriving DecidableEq, Repr

/-- The input stream as the loader finds it (R236). -/
inductive InputStream where
  /-- Read to completion. -/
  | bytes (bs : List Byte)
  /-- It could not be read to completion; `written` are the words already written by then, a number the spec leaves
  open (R204; log entry 11). -/
  | unreadable (written : List Word)
  deriving DecidableEq, Repr

/-- Everything the host supplies at launch: the parameters of R11, `MEM0`, the ROM and the input. -/
structure LaunchInput where
  nAddr    : Nat
  inBase   : Int
  outBase  : Int
  heapTop  : Int
  negLow   : Int
  negBufLo : Int
  negBufHi : Int
  /-- `MEM0` as (cell, value) pairs, a later pair winning; cells not named are 0. Pairs that name cell 0 or a cell
  outside the window are no part of `MEM0` and are left out (log entry 15). -/
  mem0     : List (Nat × Word)
  rom      : RomSource
  input    : InputStream
  deriving DecidableEq, Repr

/-- `MEM0` in memory's canonical form. -/
def powerOnMemory (nAddr : Nat) (mem0 : List (Nat × Word)) : Memory :=
  (mem0.filter fun x => 0 < x.1 && x.1 < nAddr).foldl (fun m x => Cells.set m x.1 x.2) []

/-- The ROM's lines, or the first integer that is no line (R72, R86, R233). -/
def romLines : RomSource → Except Int (List RomLine)
  | .text file => .ok ((romTextLines file).map .text)
  | .words ws =>
    match ws.find? fun w => !legalRomWord w with
    | some w => .error w
    | none => .ok (ws.map fun w => .word (BitVec.ofNat 58 w.toNat))

/-- The words the loader writes (R237), or had written when the stream failed (R204). -/
def inputWords : InputStream → List Word
  | .bytes bs => packWords bs
  | .unreadable written => written

/-- Would an input word land on cell 0 (R235)? -/
def inputOnPc (c : Config) (n : Nat) : Bool :=
  (List.range n).any fun k => cellIndex c (c.inBase + k) == 0

/-- The configuration of a launch, once its window is known. -/
def launchConfig (inp : LaunchInput) (window : Fin 15) : Config :=
  { window := window, inBase := inp.inBase, outBase := inp.outBase, heapTop := inp.heapTop
    negLow := inp.negLow, negBufLo := inp.negBufLo, negBufHi := inp.negBufHi }

/-- The machine after reset, ROM load and input load (R232 stages 1 to 3); an unreadable stream leaves it faulted with
cause INPUT_ERROR before any cycle (R204, R236). -/
def loadedState (cfg : Config) (inp : LaunchInput) (rom : List RomLine) : State :=
  let s := loadWords cfg.inBase (inputWords inp.input)
    (State.powerOn cfg (powerOnMemory cfg.nAddr inp.mem0) rom)
  match inp.input with
  | .bytes _ => s
  | .unreadable _ => s.takeFault .inputError

/-- A launch, its stages in the order of R232: an input that cannot be read ends it in stage 3, before the checks of R235
are made in stage 4; a readable one is refused by them or leaves the state in which cycle 0 begins. No state of the machine
holds an illegal window or line, so the input error of such a launch is answered without one (log entry 11). -/
def launch (inp : LaunchInput) : Host.Outcome State Fault Refusal :=
  match inp.input, windowOf inp.nAddr, romLines inp.rom with
  | .unreadable _, some k, .ok rom => .next (loadedState (launchConfig inp k) inp rom)
  | .unreadable _, none, _ => .fault (.failedRun .inputError)
  | .unreadable _, _, .error _ => .fault (.failedRun .inputError)
  | .bytes _, none, _ => .refused (.windowSize inp.nAddr)
  | .bytes _, some _, .error w => .refused (.romWord w)
  | .bytes bs, some k, .ok rom =>
    if inputOnPc (launchConfig inp k) (packWords bs).length then .refused .inputOnPc
    else .next (loadedState (launchConfig inp k) inp rom)

end Sys2Proof.Machine
end

