-- ==== Sys2Proof/Safety.lean ====
section
/-! DEFINITION. The terms claims use: the invariant of the state, what a run's end means, and the spec's rules about one
cycle written as pure functions of the state before it, with no counting and no threading of states. -/

namespace Sys2Proof.Machine

/-! ### The invariant and the ends of a run -/

/-- Memory and counters are in canonical form and list no cell outside the window (R22, R36). -/
def State.CellsOk (s : State) : Prop :=
  Memory.wf s.mem ∧ Cells.inWindow s.cfg.nAddr s.mem ∧
  Cells.wf s.cnt ∧ Cells.inWindow s.cfg.nAddr s.cnt

/-- The cause is NONE exactly while the machine runs or has halted (R33). -/
def State.CauseOk (s : State) : Prop := s.run = .faulted ↔ s.cause ≠ .none

/-- What every reachable state satisfies. -/
def State.Inv (s : State) : Prop := s.CellsOk ∧ s.CauseOk

/-- The successful end of a run (R239). -/
def State.Successful (s : State) : Prop := s.run = .halted ∧ s.cause = .none

/-- The run has ended (R239). -/
def State.Ended (s : State) : Prop := s.run ≠ .running

/-- Two states agree on everything an instruction can see: the window, the architectural state of R21. They may differ in the
diagnostic state and in the parameters that only diagnostics or the host use. -/
def SameArchitecture (s t : State) : Prop :=
  s.cfg.nAddr = t.cfg.nAddr ∧ (∀ j, s.cell j = t.cell j) ∧ s.wb = t.wb ∧ s.run = t.run ∧
  s.cause = t.cause ∧ s.rom = t.rom

/-! ### One cycle, as pure functions of the state before it -/

/-- Cell `j` after step 3: the value of the pending write-back if it selects cell `j`, else what the cell held (R114). -/
def State.afterCommit (s : State) (j : Nat) : Word :=
  if s.wb.active = true ∧ s.wb.dest.toNat % s.cfg.nAddr = j then s.wb.value else s.cell j

/-- The machine with its pending write-back already in memory and none pending (R114). -/
def State.committed (s : State) : State :=
  { s.memWrite s.wb.dest.toNat s.wb.value.toNat with wb := { s.wb with active := false } }

/-- The value reached from `v` by `k` dereferences in a window of `n` cells with contents `m` (R47). -/
def chase (n : Nat) (m : Nat → Word) : Nat → Word → Word
  | 0, v => v
  | k + 1, v => chase n m k (m (v.toNat % n))

/-- The raw addresses those dereferences read, in order (R47, R49). -/
def trail (n : Nat) (m : Nat → Word) : Nat → Word → List Word
  | 0, _ => []
  | k + 1, v => v :: trail n m k (m (v.toNat % n))

/-- The value of an operand in the cycle that begins in `s` (R45, R115). -/
def State.operandValue (s : State) (o : Operand) : Word :=
  chase s.cfg.nAddr s.afterCommit o.mode.depth o.lit

/-- The raw addresses an operand reads in the cycle that begins in `s`. -/
def State.operandTrail (s : State) (o : Operand) : List Word :=
  trail s.cfg.nAddr s.afterCommit o.mode.depth o.lit

/-- The raw addresses the three operands read, in operand order 1, 2, 3 (R51). -/
def State.instrTrail (s : State) (i : Instr) : List Word :=
  s.operandTrail i.operands.1 ++ s.operandTrail i.operands.2.1 ++ s.operandTrail i.operands.2.2

/-- The cells that steps 3 to 7 access when the operands read the raw addresses `rs`, each as often as it is accessed: the
commit, the operand reads, the two accesses of the PC's advance (R44, R114, R119). -/
def State.accesses (s : State) (rs : List Word) : List Nat :=
  (if s.wb.active then [s.wb.dest.toNat % s.cfg.nAddr] else [])
    ++ rs.map (fun r => r.toNat % s.cfg.nAddr) ++ [0, 0]

/-- `t` is the state steps 3 to 7 leave of `s` when they leave `pending` in the write-back register: the previous result is
committed, the PC advanced, the step counted, and nothing else architectural changed (R111). -/
def CycleEnds (s t : State) (pending : WriteBack) : Prop :=
  t.wb = pending ∧
  (∀ j, j ≠ 0 → t.cell j = s.afterCommit j) ∧
  t.pc = s.afterCommit 0 + 1 ∧
  t.rom = s.rom ∧ t.cfg = s.cfg ∧ t.run = s.run ∧ t.cause = s.cause ∧
  t.steps = s.steps + 1

/-- The raw address `r` is in the overflow band or in the negative buffer (R49). -/
def InFlaggedBand (c : Config) (r : Int) : Prop :=
  (c.heapTop < r ∧ r < c.negLow) ∨ (c.negBufLo ≤ r ∧ r ≤ c.negBufHi)

/-- The line the PC names, when the machine runs and the line decodes to `i`: the next step executes `i`. -/
def State.Executes (s : State) (i : Instr) : Prop :=
  s.run = .running ∧ ∃ line, s.rom[s.pc.toNat]? = some line ∧ decodeLine line = .ok i

/-- The value a launch's `MEM0` gives cell `j`: that of the last pair naming it, else 0. -/
def mem0Value (mem0 : List (Nat × Word)) (j : Nat) : Word :=
  (((mem0.filter fun x => x.1 == j).getLast?).map fun x => x.2).getD 0

/-- An opcode has this `opc` field value and this text mnemonic, and builds this constructor (R82, R88). -/
def EncodedAs (mk : Operand → Operand → Operand → Instr) (field : BitVec 4) (name : List Char) : Prop :=
  (∀ o1 o2 o3 : Operand, (encode (mk o1 o2 o3)).extractLsb' 54 4 = field) ∧
  ∃ op, opcodeOfField field = some op ∧ opcodeOfToken name = some op ∧ op.instr = mk

/-! ### The line grammar of R73, as a description of a line rather than a reader of it -/

/-- `ws*`. -/
def Blank (cs : List Char) : Prop := ∀ ch ∈ cs, ch = ' ' ∨ ch = '\t'

/-- `digit { digit }`. -/
def Digits (cs : List Char) : Prop := cs ≠ [] ∧ ∀ ch ∈ cs, ch.isDigit = true

/-- `[ mode ] [ "-" ] digit { digit }`, and the operand it denotes: the letter's mode, the number modulo 65536 (R75, R78). -/
def OperandToken (cs : List Char) (o : Operand) : Prop :=
  ∃ ds, Digits ds ∧
    ((cs = renderMode o.mode ++ ds ∧ o.lit = BitVec.ofInt 16 (digitsValue ds)) ∨
     (cs = renderMode o.mode ++ '-' :: ds ∧ o.lit = BitVec.ofInt 16 (-(digitsValue ds : Int))))

/-- `line` of R73, with the opcode and operands it denotes. -/
def LineOfGrammar (line : List Char) (op : Opcode) (o1 o2 o3 : Operand) : Prop :=
  ∃ w0 n w1 w2 t1 w3 t2 w4 t3 w5 tail,
    line = w0 ++ n ++ ['.'] ++ w1 ++ op.mnemonic ++ w2 ++ t1 ++ w3 ++ t2 ++ w4 ++ t3 ++ w5 ++ tail ∧
    Blank w0 ∧ Digits n ∧ Blank w1 ∧ w1 ≠ [] ∧ Blank w2 ∧ w2 ≠ [] ∧ OperandToken t1 o1 ∧ Blank w3 ∧ w3 ≠ [] ∧
    OperandToken t2 o2 ∧ Blank w4 ∧ w4 ≠ [] ∧ OperandToken t3 o3 ∧ Blank w5 ∧
    (tail = [] ∨ ∃ rest, tail = ';' :: rest)

end Sys2Proof.Machine
end

