-- ==== Sys2Proof/Certificates/Slice0/Obligations.lean ====
section
/-! DEFINITION. The statements for the provers. Each docstring names the rule of spec/ it formalises, and says where it rests
on the spec's own decision or inference or on a log entry of the model. -/

open Sys2Proof Sys2Proof.Machine

/-! ### Reset and launch -/

/-- R231: the state at reset, for every configuration, every `MEM0` and every ROM. -/
def Obligations.PowerOnLeavesTheResetValues : Prop :=
  ∀ (cfg : Config) (mem0 : List (Nat × Word)) (rom : List RomLine),
    let s := State.powerOn cfg (powerOnMemory cfg.nAddr mem0) rom
    s.run = .running ∧ s.pc = 0 ∧
    (∀ j, 0 < j → j < cfg.nAddr → s.cell j = mem0Value mem0 j) ∧
    s.wb = { active := false, value := 0, dest := 0 } ∧ s.cause = .none ∧
    (∀ j, s.count j = 0) ∧ s.steps = 0 ∧ s.warnings = [] ∧ s.rom = rom

/-- The model's own choices in `State.reset`: the window and bases of the test vectors, zero memory, no ROM (log entries 2, 3
and 5). With the empty ROM the first fetch halts with one access counted on cell 0 (95_test_vectors.md 2.7). -/
def Obligations.ResetOfTheModelHaltsAtFirstFetch : Prop :=
  State.reset.cfg.nAddr = 1024 ∧ State.reset.mem = [] ∧ State.reset.rom = [] ∧
  ∃ t, step State.reset = .next t ∧ t.run = .halted ∧ t.pc = 0 ∧ t.steps = 0 ∧ t.count 0 = 1

/-- A launch with a readable input is refused exactly for the three reasons of R235 (the spec's own choice, 92_eei_decisions.md
D2, D18, D20); one with an unreadable input never is, since its input error comes first in the order of R232 (log entry 11). -/
def Obligations.LaunchRefusedExactlyForTheThreeReasons : Prop :=
  ∀ inp : LaunchInput,
    (∀ bs, inp.input = .bytes bs →
      let bad := (¬ ∃ k, 2 ≤ k ∧ k ≤ 16 ∧ inp.nAddr = 2 ^ k) ∨
        (∃ ws w, inp.rom = .words ws ∧ w ∈ ws ∧ ¬ (0 ≤ w ∧ w < 2 ^ 58)) ∨
        (∃ k : Nat, k < (packWords bs).length ∧ (inp.inBase + k) % (inp.nAddr : Int) = 0)
      (bad → ∃ r, launch inp = .refused r) ∧ (¬ bad → ∃ s, launch inp = .next s)) ∧
    ∀ ws, inp.input = .unreadable ws → ∀ r, launch inp ≠ .refused r

/-- A launch with a readable input leaves the reset state with the lines and the parameters supplied, the packed words from IN_BASE
upward, one access counted on each, and every other cell at its reset value (R232, R233, R237, R238; the refusal of a word on
cell 0 is the spec's own choice D20; that the parameters stand in the state is log entry 1). -/
def Obligations.LaunchLoadsThePackedInput : Prop :=
  ∀ (inp : LaunchInput) (bs : List Byte) (s : State), inp.input = .bytes bs → launch inp = .next s →
    s.run = .running ∧ s.pc = 0 ∧ s.cause = .none ∧ s.wb = { active := false, value := 0, dest := 0 } ∧
    s.steps = 0 ∧ s.warnings = [] ∧
    s.cfg.nAddr = inp.nAddr ∧ s.cfg.inBase = inp.inBase ∧ s.cfg.outBase = inp.outBase ∧
    s.cfg.heapTop = inp.heapTop ∧ s.cfg.negLow = inp.negLow ∧
    s.cfg.negBufLo = inp.negBufLo ∧ s.cfg.negBufHi = inp.negBufHi ∧
    (∀ file, inp.rom = .text file → s.rom = (romTextLines file).map .text) ∧
    (∀ vs, inp.rom = .words vs → s.rom.length = vs.length ∧
      ∀ (k : Nat) (v : Int), vs[k]? = some v → ∃ d : Diw, s.rom[k]? = some (.word d) ∧ (d.toNat : Int) = v) ∧
    (∀ (k : Nat) (w : Word), (packWords bs)[k]? = some w →
      s.cell (cellIndex s.cfg (inp.inBase + k)) = w ∧ s.count (cellIndex s.cfg (inp.inBase + k)) = 1) ∧
    (∀ j, 0 < j → j < inp.nAddr →
      (∀ k : Nat, k < (packWords bs).length → cellIndex s.cfg (inp.inBase + k) ≠ j) →
      s.cell j = mem0Value inp.mem0 j ∧ s.count j = 0)

/-- R237: word k is `B[2k] | (B[2k+1] << 8)`, with a zero byte for the one an odd stream lacks. -/
def Obligations.InputBytesPackTwoToAWord : Prop :=
  ∀ bs : List Byte, (packWords bs).length = (bs.length + 1) / 2 ∧
    ∀ k, k < (bs.length + 1) / 2 →
      (packWords bs)[k]? = some (BitVec.ofNat 16 ((bs.getD (2 * k) 0).toNat ||| ((bs.getD (2 * k + 1) 0).toNat <<< 8)))

/-- An unreadable input stream ends the launch faulted with cause INPUT_ERROR, before any check of R235: memory holds its reset
contents with the words already written, no cycle runs and the host has no output (R204, R232, R236; the cause is the spec's own
choice D17). What was written by then is an input of the launch, and a window or ROM that no state can hold gives the input error
without a state (log entry 11). The step of the faulted machine is log entry 6, the record is log entry 8. -/
def Obligations.UnreadableInputEndsTheLaunchFaulted : Prop :=
  ∀ (inp : LaunchInput) (ws : List Word), inp.input = .unreadable ws →
    let held := (∃ k, 2 ≤ k ∧ k ≤ 16 ∧ inp.nAddr = 2 ^ k) ∧
      ∀ vs v, inp.rom = .words vs → v ∈ vs → 0 ≤ v ∧ v < 2 ^ 58
    (held → ∃ s, launch inp = .next s ∧ s.run = .faulted ∧ s.cause = .inputError ∧ s.steps = 0 ∧
      s.wb = { active := false, value := 0, dest := 0 } ∧ s.warnings = [] ∧ s.cfg.nAddr = inp.nAddr ∧
      (∀ (k : Nat) (w : Word), ws[k]? = some w →
        (∀ k' : Nat, k < k' → k' < ws.length →
          cellIndex s.cfg (inp.inBase + k') ≠ cellIndex s.cfg (inp.inBase + k)) →
        s.cell (cellIndex s.cfg (inp.inBase + k)) = w) ∧
      (∀ j, j < inp.nAddr → (∀ k : Nat, k < ws.length → cellIndex s.cfg (inp.inBase + k) ≠ j) →
        s.cell j = if j = 0 then 0 else mem0Value inp.mem0 j) ∧
      (∀ j, s.count j = BitVec.ofNat 64
        (((List.range ws.length).map fun k => cellIndex s.cfg (inp.inBase + (k : Nat))).count j)) ∧
      step s = .next s ∧ s.faultRecord = some .inputError ∧ hostReadout s = .fault (.failedRun .inputError)) ∧
    (¬ held → launch inp = .fault (.failedRun .inputError))

/-! ### Memory -/

/-- R41: the value of the cell the address reduces to, with one access counted on it and nothing else changed. -/
def Obligations.MemoryReadCountsOneAccess : Prop :=
  ∀ (s : State) (addr : Int), (s.memRead addr).1 = s.cell (addr % (s.cfg.nAddr : Int)).toNat ∧
    (∀ j, (s.memRead addr).2.count j =
      if j = (addr % (s.cfg.nAddr : Int)).toNat then s.count j + 1 else s.count j) ∧
    (s.memRead addr).2 = { s with cnt := (s.memRead addr).2.cnt }

/-- R42: the value is stored modulo 65536 in the cell the address reduces to, with one access counted on it; every other cell,
counter and register is unchanged. -/
def Obligations.MemoryWriteStoresModulo65536 : Prop :=
  ∀ (s : State) (addr : Int) (v : Nat),
    let i := (addr % (s.cfg.nAddr : Int)).toNat
    let t := s.memWrite addr v
    (t.cell i).toNat = v % 65536 ∧ (∀ j, j ≠ i → t.cell j = s.cell j) ∧
    t.count i = s.count i + 1 ∧ (∀ j, j ≠ i → t.count j = s.count j) ∧
    t = { s with mem := t.mem, cnt := t.cnt }

/-- R13, R43: an address selects its non-negative residue modulo N_ADDR (the spec's own choice D3), and addresses that differ by a
multiple of 65536 select the same cell. -/
def Obligations.AddressesReduceIntoTheWindow : Prop :=
  ∀ (c : Config) (addr : Int), cellIndex c addr < c.nAddr ∧ (∃ q : Int, addr = q * c.nAddr + cellIndex c addr) ∧
    ∀ m : Int, cellIndex c (addr + 65536 * m) = cellIndex c addr

/-- R60 (derived in the spec): -k selects cell N_ADDR - k, and so does its 16-bit form. -/
def Obligations.NegativeAddressesSelectTheTopOfTheWindow : Prop :=
  ∀ (c : Config) (k : Nat), 1 ≤ k → k ≤ c.nAddr →
    cellIndex c (-(k : Int)) = c.nAddr - k ∧ (BitVec.ofInt 16 (-(k : Int))).toNat % c.nAddr = c.nAddr - k

/-- The canonical form makes equal memories equal data (the model's choice of layout, log entry 4). -/
def Obligations.CanonicalCellsAreDeterminedByTheirValues : Prop :=
  ∀ (w : Nat) (m m' : Cells w), Cells.wf m → Cells.wf m' → (∀ i, Cells.get m i = Cells.get m' i) → m = m'

/-! ### Operands -/

/-- R47 with R46: the value of each mode, one read and one bounds check per dereference, and nothing else changed (which addresses
a check flags is R49, with the spec's own choice D19). -/
def Obligations.ResolveReadsOncePerDereference : Prop :=
  ∀ (origin : Word) (o : Operand) (s : State),
    let n := s.cfg.nAddr
    let r := s.resolve origin o
    let rs := trail n s.cell o.mode.depth o.lit
    (o.mode = .imm → r.1 = o.lit ∧ r.2 = s) ∧
    (o.mode = .a → r.1 = s.cell (o.lit.toNat % n)) ∧
    (o.mode = .b → r.1 = s.cell ((s.cell (o.lit.toNat % n)).toNat % n)) ∧
    (o.mode = .c → r.1 = s.cell ((s.cell ((s.cell (o.lit.toNat % n)).toNat % n)).toNat % n)) ∧
    rs.length = o.mode.depth ∧
    (∀ j, r.2.count j = s.count j + BitVec.ofNat 64 ((rs.map fun v => v.toNat % n).count j)) ∧
    r.2.warnings = s.warnings ++ ((rs.filter (flagged s.cfg)).map fun v =>
      { address := v, pc := origin, cycle := s.steps }) ∧
    r.2 = { s with cnt := r.2.cnt, warnings := r.2.warnings }

/-- R49, R50: a warning exactly for a raw address in a flagged band, and no other effect (the comparison on 16 bits is the spec's
own choice D19). -/
def Obligations.BoundsCheckOnlyWarns : Prop :=
  ∀ (origin raw : Word) (s : State),
    (InFlaggedBand s.cfg raw.toNat → s.boundsCheck origin raw =
      { s with warnings := s.warnings ++ [{ address := raw, pc := origin, cycle := s.steps }] }) ∧
    (¬ InFlaggedBand s.cfg raw.toNat → s.boundsCheck origin raw = s)

/-! ### The result of each instruction: what its cycle leaves in `wb`, and the whole architectural state after it -/

/-- R141 for the condition, the value and the destination. In this and the next twelve statements the opcode number and its place in
the word are the spec's own choices (D5, D6), and the cycle around the ALU is R111, R114, R118 to R120, with the advance that wraps
at 65535 (the spec's own choice D10, log entry 14). -/
def Obligations.MnzMovesWhenNotZero : Prop :=
  EncodedAs .mnz 0 ['M', 'N', 'Z'] ∧
  ∀ (o1 o2 o3 : Operand) (s : State), ∃ t, exec (.mnz o1 o2 o3) s = .next t ∧
    CycleEnds s t
      { active := decide (s.operandValue o1 ≠ 0), value := s.operandValue o2, dest := s.operandValue o3 }

/-- R142; the cycle and the encoding rest on D5, D6, D10 and log entry 14 as for MNZ. -/
def Obligations.MlzMovesWhenBit15IsSet : Prop :=
  EncodedAs .mlz 1 ['M', 'L', 'Z'] ∧
  ∀ (o1 o2 o3 : Operand) (s : State), ∃ t, exec (.mlz o1 o2 o3) s = .next t ∧
    CycleEnds s t
      { active := decide (32768 ≤ (s.operandValue o1).toNat), value := s.operandValue o2
        dest := s.operandValue o3 }

/-- R151; the cycle and the encoding rest on D5, D6, D10 and log entry 14 as for MNZ. -/
def Obligations.AddLeavesTheSumModulo65536 : Prop :=
  EncodedAs .add 2 ['A', 'D', 'D'] ∧
  ∀ (o1 o2 o3 : Operand) (s : State), ∃ t, exec (.add o1 o2 o3) s = .next t ∧
    CycleEnds s t
      { active := true
        value := BitVec.ofNat 16 (((s.operandValue o1).toNat + (s.operandValue o2).toNat) % 65536)
        dest := s.operandValue o3 }

/-- R152; the cycle and the encoding rest on D5, D6, D10 and log entry 14 as for MNZ. -/
def Obligations.SubLeavesTheDifferenceModulo65536 : Prop :=
  EncodedAs .sub 3 ['S', 'U', 'B'] ∧
  ∀ (o1 o2 o3 : Operand) (s : State), ∃ t, exec (.sub o1 o2 o3) s = .next t ∧
    CycleEnds s t
      { active := true
        value := BitVec.ofInt 16
          ((((s.operandValue o1).toNat : Int) - ((s.operandValue o2).toNat : Int) + 65536) % 65536)
        dest := s.operandValue o3 }

/-- R161; the cycle and the encoding rest on D5, D6, D10 and log entry 14 as for MNZ. -/
def Obligations.AndLeavesTheBitwiseAnd : Prop :=
  EncodedAs .and 4 ['A', 'N', 'D'] ∧
  ∀ (o1 o2 o3 : Operand) (s : State), ∃ t, exec (.and o1 o2 o3) s = .next t ∧
    CycleEnds s t
      { active := true, value := s.operandValue o1 &&& s.operandValue o2, dest := s.operandValue o3 }

/-- R162; the cycle and the encoding rest on D5, D6, D10 and log entry 14 as for MNZ. -/
def Obligations.OrLeavesTheBitwiseOr : Prop :=
  EncodedAs .or 5 ['O', 'R'] ∧
  ∀ (o1 o2 o3 : Operand) (s : State), ∃ t, exec (.or o1 o2 o3) s = .next t ∧
    CycleEnds s t
      { active := true, value := s.operandValue o1 ||| s.operandValue o2, dest := s.operandValue o3 }

/-- R163; the cycle and the encoding rest on D5, D6, D10 and log entry 14 as for MNZ. -/
def Obligations.XorLeavesTheBitwiseExclusiveOr : Prop :=
  EncodedAs .xor 6 ['X', 'O', 'R'] ∧
  ∀ (o1 o2 o3 : Operand) (s : State), ∃ t, exec (.xor o1 o2 o3) s = .next t ∧
    CycleEnds s t
      { active := true, value := s.operandValue o1 ^^^ s.operandValue o2, dest := s.operandValue o3 }

/-- R164; the cycle and the encoding rest on D5, D6, D10 and log entry 14 as for MNZ. -/
def Obligations.AntLeavesAAndNotB : Prop :=
  EncodedAs .ant 7 ['A', 'N', 'T'] ∧
  ∀ (o1 o2 o3 : Operand) (s : State), ∃ t, exec (.ant o1 o2 o3) s = .next t ∧
    CycleEnds s t
      { active := true, value := s.operandValue o1 &&& ~~~(s.operandValue o2), dest := s.operandValue o3 }

/-- R171; the truncation of the stored value is the spec's own choice (D9, R31); the cycle and the encoding rest on D5, D6, D10 and
log entry 14 as for MNZ. -/
def Obligations.SlStoresTheShiftModulo65536 : Prop :=
  EncodedAs .sl 8 ['S', 'L'] ∧
  ∀ (o1 o2 o3 : Operand) (s : State), ∃ t, exec (.sl o1 o2 o3) s = .next t ∧
    CycleEnds s t
      { active := true
        value := BitVec.ofNat 16 (((s.operandValue o1).toNat * 2 ^ (s.operandValue o2).toNat) % 65536)
        dest := s.operandValue o3 }

/-- R172; the cycle and the encoding rest on D5, D6, D10 and log entry 14 as for MNZ. -/
def Obligations.SrlShiftsRightWithZeros : Prop :=
  EncodedAs .srl 9 ['S', 'R', 'L'] ∧
  ∀ (o1 o2 o3 : Operand) (s : State), ∃ t, exec (.srl o1 o2 o3) s = .next t ∧
    CycleEnds s t
      { active := true
        value := BitVec.ofNat 16 ((s.operandValue o1).toNat / 2 ^ (s.operandValue o2).toNat)
        dest := s.operandValue o3 }

/-- R173: the document's 8-bit formula, as written; the cycle and the encoding rest on D5, D6, D10 and log entry 14 as for MNZ. -/
def Obligations.SraShiftsTheLowByteOnly : Prop :=
  EncodedAs .sra 10 ['S', 'R', 'A'] ∧
  ∀ (o1 o2 o3 : Operand) (s : State), ∃ t, exec (.sra o1 o2 o3) s = .next t ∧
    CycleEnds s t
      { active := true
        value := (s.operandValue o1 &&& 0x80) ^^^ ((s.operandValue o1 &&& 0x7F) >>> (s.operandValue o2).toNat)
        dest := s.operandValue o3 }

/-- R174: operand 1 does not occur in the value, but its reads are counted and may warn as for any instruction. The exact counts rest on
the spec's own choice D14, the bands on D19, a warning's 16-bit address on log entry 10; the cycle and the encoding rest on D5, D6,
D10 and log entry 14 as for MNZ. -/
def Obligations.SruHalvesOperandTwo : Prop :=
  EncodedAs .sru 11 ['S', 'R', 'U'] ∧
  ∀ (o1 o2 o3 : Operand) (s : State), ∃ t, exec (.sru o1 o2 o3) s = .next t ∧
    CycleEnds s t
      { active := true, value := s.operandValue o2 >>> 1, dest := s.operandValue o3 } ∧
    (∀ j, t.count j = s.count j + BitVec.ofNat 64 ((s.accesses (s.instrTrail (.sru o1 o2 o3))).count j)) ∧
    t.warnings = s.warnings ++ ((s.instrTrail (.sru o1 o2 o3)).filter (flagged s.cfg)).map fun r =>
      { address := r, pc := s.pc, cycle := s.steps }

/-- R175: operand 1 does not occur in the value, but its reads are counted and may warn as for any instruction. The exact counts rest on
the spec's own choice D14, the bands on D19, a warning's 16-bit address on log entry 10; the cycle and the encoding rest on D5, D6,
D10 and log entry 14 as for MNZ. -/
def Obligations.SreExtractsTheHighByteOfOperandTwo : Prop :=
  EncodedAs .sre 12 ['S', 'R', 'E'] ∧
  ∀ (o1 o2 o3 : Operand) (s : State), ∃ t, exec (.sre o1 o2 o3) s = .next t ∧
    CycleEnds s t
      { active := true, value := s.operandValue o2 >>> 8, dest := s.operandValue o3 } ∧
    (∀ j, t.count j = s.count j + BitVec.ofNat 64 ((s.accesses (s.instrTrail (.sre o1 o2 o3))).count j)) ∧
    t.warnings = s.warnings ++ ((s.instrTrail (.sre o1 o2 o3)).filter (flagged s.cfg)).map fun r =>
      { address := r, pc := s.pc, cycle := s.steps }

/-- The corner cases of R171 to R173: amounts of 16 and more, and the 8-bit range of SRA. -/
def Obligations.ShiftsByLargeAmounts : Prop :=
  ∀ a b : Word,
    (16 ≤ b.toNat → BitVec.ofNat 16 (slValue a b) = 0 ∧ srlValue a b = 0) ∧
    (7 ≤ b.toNat → sraValue a b = a.toNat &&& 0x80) ∧
    sraValue a b < 256 ∧ sraValue a 0 = a.toNat % 256

/-- R153 (derived in the spec): adding back what was subtracted gives the first value. -/
def Obligations.AddRestoresWhatSubTook : Prop :=
  ∀ a b : Word, addValue (BitVec.ofNat 16 (subValue a b)) b = a.toNat

/-! ### Every instruction -/

/-- The frame of all 13 instructions, and the destination and write enable of R117: the ROM, the configuration, the run state and
the cause are unchanged, and so is every cell but cell 0 and the one the previous result is committed to. -/
def Obligations.EveryInstructionKeepsTheRestOfTheMachine : Prop :=
  ∀ (i : Instr) (s : State), ∃ t, exec i s = .next t ∧
    t.rom = s.rom ∧ t.cfg = s.cfg ∧ t.run = s.run ∧ t.cause = s.cause ∧ t.steps = s.steps + 1 ∧
    t.wb.dest = s.operandValue i.operands.2.2 ∧
    (i.opcode ≠ .mnz → i.opcode ≠ .mlz → t.wb.active = true) ∧
    ∀ j, j ≠ 0 → (s.wb.active = true → j ≠ s.wb.dest.toNat % s.cfg.nAddr) → t.cell j = s.cell j

/-- R44, R119: steps 3 to 7 count exactly the commit, the operand reads and two accesses on cell 0 (that the advance counts two is
the spec's own choice D14). -/
def Obligations.EveryInstructionCountsItsAccesses : Prop :=
  ∀ (i : Instr) (s : State), ∃ t, exec i s = .next t ∧
    ∀ j, t.count j = s.count j + BitVec.ofNat 64 ((s.accesses (s.instrTrail i)).count j)

/-- R49 to R51: a cycle appends one warning per flagged raw address, in operand order, with the PC that was fetched and the step
count (D19 as above). -/
def Obligations.EveryInstructionWarnsInOperandOrder : Prop :=
  ∀ (i : Instr) (s : State), ∃ t, exec i s = .next t ∧
    t.warnings = s.warnings ++ ((s.instrTrail i).filter (flagged s.cfg)).map fun r =>
      { address := r, pc := s.pc, cycle := s.steps }

/-- R63, R129 (R129 derived in the spec): the result of a cycle is not in memory when that cycle ends; the next executed instruction
runs exactly as on the machine that has the result in memory already, so all its operands see it, and it is in memory when that
one ends. A result for cell 0 is the subject of PcWriteHasOneDelaySlot. -/
def Obligations.ResultIsVisibleFromTheNextCycle : Prop :=
  ∀ (i k : Instr) (s : State), ∃ t u, exec i s = .next t ∧ exec k (t.bump 0) = .next u ∧
    (∀ j, j ≠ 0 → t.cell j = s.afterCommit j) ∧
    (t.wb.active = true → t.wb.dest.toNat % s.cfg.nAddr ≠ 0 →
      let d := t.wb.dest.toNat % s.cfg.nAddr
      let m := (t.bump 0).committed
      exec k m = .next u ∧ m.cell d = t.wb.value ∧ (∀ j, j ≠ d → m.cell j = t.cell j) ∧
      (∀ origin o, (m.resolve origin o).1 = (t.bump 0).operandValue o) ∧
      (∀ l : Word, l.toNat % s.cfg.nAddr = d →
        (t.bump 0).operandValue { mode := .a, lit := l } = t.wb.value ∧
        (k.operands.2.2 = { mode := .a, lit := l } → u.wb.dest = t.wb.value)) ∧
      u.cell d = t.wb.value)

/-! ### The step -/

/-- A step runs the decoded instruction: it is `exec` of it on the state after the counted fetch of step 1 (R111 to R113). -/
def Obligations.StepRunsTheDecodedInstruction : Prop :=
  ∀ (s : State) (i : Instr), s.Executes i → step s = exec i (s.bump 0)

/-- R112: a fetched PC at or beyond L halts, with one access counted on cell 0 and nothing else done; with L of 65536 or more no
step of a running machine halts (an L of any size is the spec's own choice D22). -/
def Obligations.FetchAtOrBeyondTheEndHalts : Prop :=
  ∀ s : State, s.run = .running →
    (s.rom.length ≤ s.pc.toNat → ∃ t, step s = .next t ∧ t.run = .halted ∧ t.count 0 = s.count 0 + 1 ∧
      t = { s with run := .halted, cnt := t.cnt } ∧ ∀ j, j ≠ 0 → t.count j = s.count j) ∧
    (s.pc.toNat < s.rom.length → ∃ t, step s = .next t ∧ t.run ≠ .halted) ∧
    (65536 ≤ s.rom.length → ∃ t, step s = .next t ∧ t.run ≠ .halted)

/-- R202, R207 (R207 derived in the spec): a malformed line, when fetched, faults before the commit of step 3: the run state and
the cause change, one access is counted on cell 0, and nothing else changes; the PC and the line text are on record. That the
machine's fault is a next state is log entry 7; that the record is read off the state is log entry 8. -/
def Obligations.MalformedLineFaultsBeforeTheCommit : Prop :=
  ∀ (s : State) (l : List Char) (e : Reject), s.run = .running → s.rom[s.pc.toNat]? = some (.text l) →
    decodeText l = .error e →
    ∃ t, step s = .next t ∧ t = { s with run := .faulted, cause := .decodeError, cnt := t.cnt } ∧
      t.count 0 = s.count 0 + 1 ∧ (∀ j, j ≠ 0 → t.count j = s.count j) ∧
      t.faultRecord = some (.decodeError s.pc l)

/-- R203, R207 (R207 derived in the spec): a word with opcode field 13, 14 or 15, when fetched, faults before the commit; log
entries 7 and 8 as above. -/
def Obligations.IllegalWordFaultsBeforeTheCommit : Prop :=
  ∀ (s : State) (w : Diw), s.run = .running → s.rom[s.pc.toNat]? = some (.word w) → 13 ≤ w.toNat / 2 ^ 54 →
    ∃ t, step s = .next t ∧ t = { s with run := .faulted, cause := .illegalEncoding, cnt := t.cnt } ∧
      t.count 0 = s.count 0 + 1 ∧ (∀ j, j ≠ 0 → t.count j = s.count j) ∧
      t.faultRecord = some (.illegalEncoding s.pc w)

/-- R206: no instruction raises anything while it executes, and every fault of a running machine comes from step 2; the cause
tells a malformed text line from an illegal word (R203). -/
def Obligations.FaultsComeOnlyFromDecoding : Prop :=
  (∀ (i : Instr) (s : State), ∃ t, exec i s = .next t ∧ t.run = s.run ∧ t.cause = s.cause) ∧
  ∀ s : State, s.run = .running → ∃ t, step s = .next t ∧
    (t.run = .faulted →
      (∃ l e, s.rom[s.pc.toNat]? = some (.text l) ∧ decodeText l = .error e ∧ t.cause = .decodeError) ∨
      (∃ w, s.rom[s.pc.toNat]? = some (.word w) ∧ 13 ≤ w.toNat / 2 ^ 54 ∧ t.cause = .illegalEncoding))

/-- R32, R209: nothing leaves Halted or Faulted. That a step of an ended machine answers the same state is the model's choice
(log entry 6). -/
def Obligations.EndedMachineStaysAsItIs : Prop :=
  ∀ s : State, s.Ended → step s = .next s

/-- R28: the PC is written by the commit, when the pending destination selects cell 0, and by the advance, which adds 1 modulo
65536 (the wrap is the spec's own choice D10); a step that executes nothing leaves it. -/
def Obligations.PcIsWrittenOnlyByCommitAndAdvance : Prop :=
  ∀ s : State, ∃ t, step s = .next t ∧
    ((∃ i, s.Executes i) → t.pc.toNat =
      ((if s.wb.active = true ∧ s.wb.dest.toNat % s.cfg.nAddr = 0 then s.wb.value else s.pc).toNat + 1) % 65536) ∧
    ((¬ ∃ i, s.Executes i) → t.pc = s.pc)

/-- R124, R125 (derived in the spec): with a PC write of value T pending, the step runs the fetched line as the delay slot, on the
machine whose cell 0 holds T already but for the PC that its warnings report (R50), so that its operands that read cell 0 see T; the
machine goes on at T + 1 (the wrap is the spec's own choice D10), or halts there if that is at or beyond L. -/
def Obligations.PcWriteHasOneDelaySlot : Prop :=
  ∀ (s : State) (i : Instr), s.Executes i → s.wb.active = true → s.wb.dest.toNat % s.cfg.nAddr = 0 →
    let m := (s.bump 0).committed
    ∃ t u, step s = .next t ∧ exec i (s.bump 0) = .next t ∧
      exec i m = .next u ∧ t = { u with warnings := t.warnings } ∧
      m.cell 0 = s.wb.value ∧ (∀ j, j ≠ 0 → m.cell j = s.cell j) ∧
      (∀ origin o, (m.resolve origin o).1 = (s.bump 0).operandValue o) ∧
      (∀ l : Word, l.toNat % s.cfg.nAddr = 0 →
        (s.bump 0).operandValue { mode := .a, lit := l } = s.wb.value ∧
        (i.operands.2.2 = { mode := .a, lit := l } → t.wb.dest = s.wb.value)) ∧
      t.pc = s.wb.value + 1 ∧
      (∀ line k, s.rom[(s.wb.value + 1).toNat]? = some line → decodeLine line = .ok k →
        step t = exec k (t.bump 0)) ∧
      (s.rom.length ≤ (s.wb.value + 1).toNat → ∃ v, step t = .next v ∧ v.run = .halted ∧ v.wb = t.wb)

/-- R34, R66: no step changes the ROM, and none changes the configuration a launch fixed (R11, log entry 1). -/
def Obligations.NoStepChangesRomOrConfiguration : Prop :=
  ∀ s : State, ∃ t, step s = .next t ∧ t.rom = s.rom ∧ t.cfg = s.cfg

/-- R21, R36, R37: the diagnostic state and the diagnostic parameters never reach the architectural state. -/
def Obligations.DiagnosticsNeverReachTheArchitecture : Prop :=
  ∀ s s' : State, SameArchitecture s s' →
    ∃ t t', step s = .next t ∧ step s' = .next t' ∧ SameArchitecture t t'

/-! ### The invariant -/

/-- Every step keeps the invariant: memory and counters canonical and inside the window (R22, R36), the cause NONE unless
faulted (R33). -/
def Obligations.EveryStepKeepsTheInvariant : Prop :=
  ∀ s : State, s.Inv → ∃ t, step s = .next t ∧ t.Inv

/-- The invariant holds at the model's reset (log entries 2, 3 and 5). -/
def Obligations.ResetMeetsTheInvariant : Prop := State.reset.Inv

/-- Every accepted launch meets the invariant. -/
def Obligations.LaunchMeetsTheInvariant : Prop :=
  ∀ (inp : LaunchInput) (s : State), launch inp = .next s → s.Inv

/-! ### Decoding -/

/-- R85: decode_word of encode is the instruction, for every opcode, mode and literal. -/
def Obligations.DecodeWordUndoesEncode : Prop :=
  ∀ i : Instr, decodeWord (encode i) = .ok i

/-- R85 (injectivity is derived in the spec): a word that decodes is the encoding of what it decodes to. -/
def Obligations.EncodeUndoesDecodeWord : Prop :=
  ∀ (w : Diw) (i : Instr), decodeWord w = .ok i → encode i = w

/-- R90: a word is illegal exactly when its opcode field is 13, 14 or 15, whatever its modes and literals, and it then raises
IllegalEncoding when fetched (the opcode numbers, the layout and the fault state are the spec's own choices D5, D6 and D17; that
the machine's fault is a next state is log entry 7). -/
def Obligations.DiwIsIllegalExactlyByItsOpcodeField : Prop :=
  ∀ w : Diw,
    (w.toNat / 2 ^ 54 < 13 → ∃ i, decodeWord w = .ok i) ∧
    (13 ≤ w.toNat / 2 ^ 54 → (∃ e, decodeWord w = .error e ∧ rejectCause e = .illegalEncoding) ∧
      ∀ s : State, s.run = .running → s.rom[s.pc.toNat]? = some (.word w) →
        ∃ t, step s = .next t ∧ t.run = .faulted ∧ t.cause = .illegalEncoding)

/-- The text form and the word form denote the same instruction (R71, R77, R80), for the spelling `renderLine` picks among those
R73 admits, with or without a comment. -/
def Obligations.TextLineDecodesToItsInstruction : Prop :=
  ∀ i : Instr, decodeText (renderLine i) = .ok i ∧
    decodeLine (.text (renderLine i)) = decodeLine (.word (encode i)) ∧
    ∀ rest : List Char, decodeText (renderLine i ++ ';' :: rest) = .ok i

/-- R76: the value of the line number is discarded. -/
def Obligations.LineNumberValueIsDiscarded : Prop :=
  ∀ (ds body : List Char), ds ≠ [] → (∀ d ∈ ds, d.isDigit = true) →
    decodeText (ds ++ '.' :: ' ' :: body) = decodeText ('0' :: '.' :: ' ' :: body)

/-- R75, R78: a mode letter or none, an optional minus sign and decimal digits of any number give the mode and the literal modulo
65536 (the modulus is the spec's own choice D4). -/
def Obligations.OperandTokenGivesModeAndLiteral : Prop :=
  digitsValue [] = 0 ∧
  (∀ (ds : List Char) (d : Char), digitsValue (ds ++ [d]) = 10 * digitsValue ds + (d.toNat - 48)) ∧
  ∀ (m : Mode) (ds rest : List Char), ds ≠ [] → (∀ d ∈ ds, d.isDigit = true) →
    (∀ d r, rest = d :: r → d.isDigit = false) →
    takeOperand (renderMode m ++ ds ++ rest) =
      some ({ mode := m, lit := BitVec.ofInt 16 (digitsValue ds) }, rest) ∧
    takeOperand (renderMode m ++ '-' :: ds ++ rest) =
      some ({ mode := m, lit := BitVec.ofInt 16 (-(digitsValue ds : Int)) }, rest)

/-- Words of 95_test_vectors.md and of R80 decode to the instructions they stand for, one at least of each family. -/
def Obligations.WordsOfTheVectorsDecode : Prop :=
  decodeTableWord 58 0x0800050001C0064 = some (.add ⟨.imm, 5⟩ ⟨.imm, 7⟩ ⟨.imm, 100⟩) ∧
  decodeTableWord 58 0x0DFFFB81003FFFF = some (.sub ⟨.a, 0xFFFB⟩ ⟨.b, 0x0400⟩ ⟨.c, 0xFFFF⟩) ∧
  decodeTableWord 58 0x01000A000040000 = some (.mnz ⟨.a, 10⟩ ⟨.imm, 1⟩ ⟨.imm, 0⟩) ∧
  decodeTableWord 58 0x110064003FC03E8 = some (.and ⟨.a, 100⟩ ⟨.imm, 255⟩ ⟨.imm, 1000⟩) ∧
  decodeTableWord 58 0x29000A00004000B = some (.sra ⟨.a, 10⟩ ⟨.imm, 1⟩ ⟨.imm, 11⟩) ∧
  decodeTableWord 58 0x340000000000000 = none ∧ decodeTableWord 58 0x400000000000000 = none

/-- R73 (the treatment of whitespace, case and token shapes is the spec's own choice D8): a text line decodes to an instruction
exactly when it matches the grammar, and is malformed otherwise, whatever the opcode, modes and literals. -/
def Obligations.TextLineDecodesExactlyByTheGrammar : Prop :=
  ∀ line : List Char,
    (∀ (op : Opcode) (o1 o2 o3 : Operand),
      decodeText line = .ok (op.instr o1 o2 o3) ↔ LineOfGrammar line op o1 o2 o3) ∧
    ((¬ ∃ op o1 o2 o3, LineOfGrammar line op o1 o2 o3) →
      ∃ e, decodeText line = .error e ∧ rejectCause e = .decodeError)

/-- R72 (the spec's own choice D7): a file cut at each LF, a CR that stands immediately before the LF removed, gives its lines in file
order, the last one with or without an LF, less those that are empty or hold only spaces and tabs; leading blank lines take no
index whatever follows them. -/
def Obligations.RomTextKeepsTheLinesInFileOrder : Prop :=
  (∀ (ls : List (List Char × Bool)) (last : List Char),
    (∀ x ∈ ls, '\n' ∉ x.1 ∧ (x.2 = false → x.1.getLast? ≠ some '\r')) → '\n' ∉ last →
    romTextLines ((ls.flatMap fun x => x.1 ++ if x.2 then ['\r', '\n'] else ['\n']) ++ last) =
      ((ls.map fun x => x.1) ++ [last]).filter fun l => l.any fun ch => ch != ' ' && ch != '\t') ∧
  ∀ (ws file : List Char), (∀ ch ∈ ws, isWs ch = true) →
    romTextLines (ws ++ '\n' :: file) = romTextLines file ∧
    romTextLines (ws ++ '\r' :: '\n' :: file) = romTextLines file

/-! ### The host's side -/

/-- R243 (the integer range and the empty case are the spec's own choice D21): the output of a halted run is the low byte of each
cell from OUT_BASE down to M[2] + 1, one access counted for each byte on the cell it comes from and nothing else changed; the look
at M[2] counts none (log entry 23). -/
def Obligations.ReadoutGivesTheLowBytesDownwards : Prop :=
  ∀ s : State, s.run = .halted → ∃ out t, hostReadout s = .next (out, t) ∧
    out.length = (s.cfg.outBase - (s.cell 2).toNat).toNat ∧
    (∀ k : Nat, k < out.length → out[k]? =
      some (BitVec.ofNat 8 ((s.cell (cellIndex s.cfg (s.cfg.outBase - k))).toNat % 256))) ∧
    (∀ j, t.count j = s.count j + BitVec.ofNat 64
      (((List.range out.length).map fun k => cellIndex s.cfg (s.cfg.outBase - (k : Nat))).count j)) ∧
    ((∀ k : Nat, k < out.length → cellIndex s.cfg (s.cfg.outBase - k) ≠ 2) → t.count 2 = s.count 2) ∧
    t = { s with cnt := t.cnt }

/-- R208, R241, R246: a faulted run has no output and its cause is reported; a running one has nothing to read. -/
def Obligations.OnlyAHaltedRunHasOutput : Prop :=
  ∀ s : State, (s.run = .faulted → hostReadout s = .fault (.failedRun s.cause)) ∧
    (s.run = .running → hostReadout s = .refused .stillRunning)

/-- The host's way to place one table word: the next step runs it (the model's own, log entry 18). -/
def Obligations.PlacedWordIsTheNextInstruction : Prop :=
  ∀ (s : State) (nbits w : Nat) (i : Instr), decodeTableWord nbits w = some i →
    step (s.withFetchWord nbits w) = exec i ((s.withFetchWord nbits w).bump 0)
end

