-- ==== Sys2Proof/Laws/Cells.lean ====
section
/-! SUPPORT. Cells as a function of their index, and the canonical form that every write keeps. -/

namespace Sys2Proof.Machine

theorem get_put_ne {w : Nat} {i j : Nat} (h : i ≠ j) (v : BitVec w) (m : Cells w) :
    Cells.get (Cells.put i v m) j = Cells.get m j := by
  induction m with
  | nil => simp [Cells.put, Cells.get, h]
  | cons x rest ih =>
    obtain ⟨k, u⟩ := x
    unfold Cells.put
    split
    · simp [Cells.get, h]
    · simp only [Cells.get, ih]

theorem get_put_self {w : Nat} {i : Nat} (v : BitVec w) (m : Cells w) (h : ∀ x ∈ m, x.1 ≠ i) :
    Cells.get (Cells.put i v m) i = v := by
  induction m with
  | nil => simp [Cells.put, Cells.get]
  | cons x rest ih =>
    obtain ⟨k, u⟩ := x
    have hk : k ≠ i := h (k, u) (by simp)
    unfold Cells.put
    split
    · simp [Cells.get]
    · simp only [Cells.get, if_neg hk]
      exact ih fun y hy => h y (by simp [hy])

theorem get_filter {w : Nat} (i j : Nat) (m : Cells w) :
    Cells.get (m.filter fun x => x.1 != i) j = if i = j then Cells.unlisted w else Cells.get m j := by
  induction m with
  | nil => simp [Cells.get]
  | cons x rest ih =>
    obtain ⟨k, u⟩ := x
    by_cases hk : k = i
    · subst hk
      simp only [List.filter_cons, bne_self_eq_false, Bool.false_eq_true, if_false, ih, Cells.get]
      split <;> rfl
    · simp only [List.filter_cons, bne_iff_ne.mpr hk, if_true, Cells.get, ih]
      by_cases hkj : k = j
      · subst hkj; simp [Ne.symm hk]
      · simp [hkj]

/-- Read after write, for any list of cells. -/
@[simp] theorem get_set {w : Nat} (m : Cells w) (i j : Nat) (v : BitVec w) :
    Cells.get (Cells.set m i v) j = if i = j then v else Cells.get m j := by
  unfold Cells.set
  by_cases h : i = j
  · subst h
    split
    · next hv => simp [get_filter, hv]
    · simp [get_put_self]
  · split
    · simp [get_filter, h]
    · simp [get_put_ne h, get_filter, h]

theorem mem_put {w : Nat} {i : Nat} {v : BitVec w} {m : Cells w} {x : Nat × BitVec w}
    (h : x ∈ Cells.put i v m) : x = (i, v) ∨ x ∈ m := by
  induction m with
  | nil => simpa [Cells.put] using h
  | cons y rest ih =>
    obtain ⟨k, u⟩ := y
    unfold Cells.put at h
    split at h
    · simpa using h
    · rcases List.mem_cons.mp h with rfl | h
      · simp
      · rcases ih h with h | h <;> simp [h]

theorem pairwise_put {w : Nat} {i : Nat} {v : BitVec w} {m : Cells w}
    (hs : m.Pairwise fun x y => x.1 < y.1) (hi : ∀ x ∈ m, x.1 ≠ i) :
    (Cells.put i v m).Pairwise fun x y => x.1 < y.1 := by
  induction m with
  | nil => simp [Cells.put]
  | cons y rest ih =>
    obtain ⟨k, u⟩ := y
    obtain ⟨hk, hr⟩ := List.pairwise_cons.mp hs
    have hki : k ≠ i := hi (k, u) (by simp)
    unfold Cells.put
    split
    · next hlt =>
      refine List.pairwise_cons.mpr ⟨fun x hx => ?_, hs⟩
      rcases List.mem_cons.mp hx with rfl | hx
      · exact hlt
      · exact hlt.trans (hk x hx)
    · refine List.pairwise_cons.mpr ⟨fun x hx => ?_, ih hr fun x hx => hi x (by simp [hx])⟩
      rcases mem_put hx with rfl | hx
      · show k < i
        omega
      · exact hk x hx

theorem mem_set {w : Nat} {m : Cells w} {i : Nat} {v : BitVec w} {x : Nat × BitVec w}
    (h : x ∈ Cells.set m i v) : x = (i, v) ∧ v ≠ Cells.unlisted w ∨ x ∈ m := by
  unfold Cells.set at h
  split at h
  · exact .inr (List.mem_filter.mp h).1
  · next hv =>
    rcases mem_put h with h | h
    · exact .inl ⟨h, hv⟩
    · exact .inr (List.mem_filter.mp h).1

/-- A write keeps the canonical form. -/
theorem wf_set {w : Nat} {m : Cells w} (h : Cells.wf m) (i : Nat) (v : BitVec w) :
    Cells.wf (Cells.set m i v) := by
  refine ⟨?_, fun x hx => ?_⟩
  · have hf : (m.filter fun x => x.1 != i).Pairwise fun x y => x.1 < y.1 := h.1.filter _
    unfold Cells.set
    split
    · exact hf
    · exact pairwise_put hf fun x hx => by simpa using (List.mem_filter.mp hx).2
  · rcases mem_set hx with ⟨rfl, hv⟩ | hx
    · exact hv
    · exact h.2 x hx

/-- A write inside the window keeps every listed cell inside it. -/
theorem inWindow_set {w n : Nat} {m : Cells w} (h : Cells.inWindow n m) {i : Nat} (hi : i < n) (v : BitVec w) :
    Cells.inWindow n (Cells.set m i v) := fun x hx => by
  rcases mem_set hx with ⟨rfl, -⟩ | hx
  · exact hi
  · exact h x hx

end Sys2Proof.Machine
end

