-- ==== Sys2Proof/Laws/State.lean ====
section
/-! SUPPORT. One lemma per field per state update, true by unfolding, so that no later proof unfolds a record update. -/

namespace Sys2Proof.Machine

@[simp] theorem memRead_fst (addr : Int) (s : State) : (s.memRead addr).1 = s.cell (cellIndex s.cfg addr) := rfl

@[simp] theorem memRead_snd (addr : Int) (s : State) : (s.memRead addr).2 = s.bump (cellIndex s.cfg addr) := rfl

/-! `State.bump` -/

@[simp] theorem bump_cfg (i : Nat) (s : State) : (s.bump i).cfg = s.cfg := rfl

@[simp] theorem bump_mem (i : Nat) (s : State) : (s.bump i).mem = s.mem := rfl

@[simp] theorem bump_wb (i : Nat) (s : State) : (s.bump i).wb = s.wb := rfl

@[simp] theorem bump_run (i : Nat) (s : State) : (s.bump i).run = s.run := rfl

@[simp] theorem bump_cause (i : Nat) (s : State) : (s.bump i).cause = s.cause := rfl

@[simp] theorem bump_rom (i : Nat) (s : State) : (s.bump i).rom = s.rom := rfl

@[simp] theorem bump_cnt (i : Nat) (s : State) : (s.bump i).cnt = Cells.set s.cnt i (s.count i + 1) := rfl

@[simp] theorem bump_steps (i : Nat) (s : State) : (s.bump i).steps = s.steps := rfl

@[simp] theorem bump_warnings (i : Nat) (s : State) : (s.bump i).warnings = s.warnings := rfl

@[simp] theorem bump_cell (i : Nat) (s : State) (j : Nat) : (s.bump i).cell j = s.cell j := rfl

@[simp] theorem bump_pc (i : Nat) (s : State) : (s.bump i).pc = s.pc := rfl

/-! `State.halt` -/

@[simp] theorem halt_cfg (s : State) : s.halt.cfg = s.cfg := rfl

@[simp] theorem halt_mem (s : State) : s.halt.mem = s.mem := rfl

@[simp] theorem halt_wb (s : State) : s.halt.wb = s.wb := rfl

@[simp] theorem halt_run (s : State) : s.halt.run = .halted := rfl

@[simp] theorem halt_cause (s : State) : s.halt.cause = s.cause := rfl

@[simp] theorem halt_rom (s : State) : s.halt.rom = s.rom := rfl

@[simp] theorem halt_cnt (s : State) : s.halt.cnt = s.cnt := rfl

@[simp] theorem halt_steps (s : State) : s.halt.steps = s.steps := rfl

@[simp] theorem halt_warnings (s : State) : s.halt.warnings = s.warnings := rfl

@[simp] theorem halt_cell (s : State) (j : Nat) : s.halt.cell j = s.cell j := rfl

@[simp] theorem halt_pc (s : State) : s.halt.pc = s.pc := rfl

@[simp] theorem halt_count (s : State) (j : Nat) : s.halt.count j = s.count j := rfl

/-! `State.takeFault` -/

@[simp] theorem takeFault_cfg (c : Cause) (s : State) : (s.takeFault c).cfg = s.cfg := rfl

@[simp] theorem takeFault_mem (c : Cause) (s : State) : (s.takeFault c).mem = s.mem := rfl

@[simp] theorem takeFault_wb (c : Cause) (s : State) : (s.takeFault c).wb = s.wb := rfl

@[simp] theorem takeFault_run (c : Cause) (s : State) : (s.takeFault c).run = .faulted := rfl

@[simp] theorem takeFault_cause (c : Cause) (s : State) : (s.takeFault c).cause = c := rfl

@[simp] theorem takeFault_rom (c : Cause) (s : State) : (s.takeFault c).rom = s.rom := rfl

@[simp] theorem takeFault_cnt (c : Cause) (s : State) : (s.takeFault c).cnt = s.cnt := rfl

@[simp] theorem takeFault_steps (c : Cause) (s : State) : (s.takeFault c).steps = s.steps := rfl

@[simp] theorem takeFault_warnings (c : Cause) (s : State) : (s.takeFault c).warnings = s.warnings := rfl

@[simp] theorem takeFault_cell (c : Cause) (s : State) (j : Nat) : (s.takeFault c).cell j = s.cell j := rfl

@[simp] theorem takeFault_pc (c : Cause) (s : State) : (s.takeFault c).pc = s.pc := rfl

@[simp] theorem takeFault_count (c : Cause) (s : State) (j : Nat) : (s.takeFault c).count j = s.count j := rfl

/-! `State.countStep` -/

@[simp] theorem countStep_cfg (s : State) : s.countStep.cfg = s.cfg := rfl

@[simp] theorem countStep_mem (s : State) : s.countStep.mem = s.mem := rfl

@[simp] theorem countStep_wb (s : State) : s.countStep.wb = s.wb := rfl

@[simp] theorem countStep_run (s : State) : s.countStep.run = s.run := rfl

@[simp] theorem countStep_cause (s : State) : s.countStep.cause = s.cause := rfl

@[simp] theorem countStep_rom (s : State) : s.countStep.rom = s.rom := rfl

@[simp] theorem countStep_cnt (s : State) : s.countStep.cnt = s.cnt := rfl

@[simp] theorem countStep_steps (s : State) : s.countStep.steps = s.steps + 1 := rfl

@[simp] theorem countStep_warnings (s : State) : s.countStep.warnings = s.warnings := rfl

@[simp] theorem countStep_cell (s : State) (j : Nat) : s.countStep.cell j = s.cell j := rfl

@[simp] theorem countStep_pc (s : State) : s.countStep.pc = s.pc := rfl

@[simp] theorem countStep_count (s : State) (j : Nat) : s.countStep.count j = s.count j := rfl

/-! `State.setPending` -/

@[simp] theorem setPending_cfg (r : AluOut) (s : State) : (s.setPending r).cfg = s.cfg := rfl

@[simp] theorem setPending_mem (r : AluOut) (s : State) : (s.setPending r).mem = s.mem := rfl

@[simp] theorem setPending_wb (r : AluOut) (s : State) : (s.setPending r).wb = { active := r.write, value := BitVec.ofNat 16 r.value, dest := r.dest } := rfl

@[simp] theorem setPending_run (r : AluOut) (s : State) : (s.setPending r).run = s.run := rfl

@[simp] theorem setPending_cause (r : AluOut) (s : State) : (s.setPending r).cause = s.cause := rfl

@[simp] theorem setPending_rom (r : AluOut) (s : State) : (s.setPending r).rom = s.rom := rfl

@[simp] theorem setPending_cnt (r : AluOut) (s : State) : (s.setPending r).cnt = s.cnt := rfl

@[simp] theorem setPending_steps (r : AluOut) (s : State) : (s.setPending r).steps = s.steps := rfl

@[simp] theorem setPending_warnings (r : AluOut) (s : State) : (s.setPending r).warnings = s.warnings := rfl

@[simp] theorem setPending_cell (r : AluOut) (s : State) (j : Nat) : (s.setPending r).cell j = s.cell j := rfl

@[simp] theorem setPending_pc (r : AluOut) (s : State) : (s.setPending r).pc = s.pc := rfl

@[simp] theorem setPending_count (r : AluOut) (s : State) (j : Nat) : (s.setPending r).count j = s.count j := rfl

/-! `State.memWrite` -/

@[simp] theorem memWrite_cfg (addr : Int) (v : Nat) (s : State) : (s.memWrite addr v).cfg = s.cfg := rfl

@[simp] theorem memWrite_mem (addr : Int) (v : Nat) (s : State) : (s.memWrite addr v).mem = Cells.set s.mem (cellIndex s.cfg addr) (BitVec.ofNat 16 v) := rfl

@[simp] theorem memWrite_wb (addr : Int) (v : Nat) (s : State) : (s.memWrite addr v).wb = s.wb := rfl

@[simp] theorem memWrite_run (addr : Int) (v : Nat) (s : State) : (s.memWrite addr v).run = s.run := rfl

@[simp] theorem memWrite_cause (addr : Int) (v : Nat) (s : State) : (s.memWrite addr v).cause = s.cause := rfl

@[simp] theorem memWrite_rom (addr : Int) (v : Nat) (s : State) : (s.memWrite addr v).rom = s.rom := rfl

@[simp] theorem memWrite_cnt (addr : Int) (v : Nat) (s : State) : (s.memWrite addr v).cnt = Cells.set s.cnt (cellIndex s.cfg addr) (s.count (cellIndex s.cfg addr) + 1) := rfl

@[simp] theorem memWrite_steps (addr : Int) (v : Nat) (s : State) : (s.memWrite addr v).steps = s.steps := rfl

@[simp] theorem memWrite_warnings (addr : Int) (v : Nat) (s : State) : (s.memWrite addr v).warnings = s.warnings := rfl

/-! `State.powerOn` -/

@[simp] theorem powerOn_cfg (cfg : Config) (mem0 : Memory) (rom : List RomLine) :
    (State.powerOn cfg mem0 rom).cfg = cfg := rfl

@[simp] theorem powerOn_mem (cfg : Config) (mem0 : Memory) (rom : List RomLine) :
    (State.powerOn cfg mem0 rom).mem = mem0 := rfl

@[simp] theorem powerOn_wb (cfg : Config) (mem0 : Memory) (rom : List RomLine) :
    (State.powerOn cfg mem0 rom).wb = { active := false, value := 0, dest := 0 } := rfl

@[simp] theorem powerOn_run (cfg : Config) (mem0 : Memory) (rom : List RomLine) :
    (State.powerOn cfg mem0 rom).run = .running := rfl

@[simp] theorem powerOn_cause (cfg : Config) (mem0 : Memory) (rom : List RomLine) :
    (State.powerOn cfg mem0 rom).cause = .none := rfl

@[simp] theorem powerOn_rom (cfg : Config) (mem0 : Memory) (rom : List RomLine) :
    (State.powerOn cfg mem0 rom).rom = rom := rfl

@[simp] theorem powerOn_cnt (cfg : Config) (mem0 : Memory) (rom : List RomLine) :
    (State.powerOn cfg mem0 rom).cnt = [] := rfl

@[simp] theorem powerOn_steps (cfg : Config) (mem0 : Memory) (rom : List RomLine) :
    (State.powerOn cfg mem0 rom).steps = 0 := rfl

@[simp] theorem powerOn_warnings (cfg : Config) (mem0 : Memory) (rom : List RomLine) :
    (State.powerOn cfg mem0 rom).warnings = [] := rfl

end Sys2Proof.Machine
end

