-- ==== Sys2Proof/Laws/Ops.lean ====
section
/-! SUPPORT. What each named operation does, said once: addresses, reads, writes, warnings, commit, advance, fetch. -/

namespace Sys2Proof.Machine

/-! ### Addresses -/

theorem nAddr_pos (c : Config) : 0 < c.nAddr := Nat.two_pow_pos _

theorem four_le_nAddr (c : Config) : 4 ≤ c.nAddr := by
  unfold Config.nAddr
  calc 4 = 2 ^ 2 := rfl
    _ ≤ 2 ^ (c.window.val + 2) := Nat.pow_le_pow_right (by decide) (by omega)

/-- `N_ADDR` divides 65536 (R12). -/
theorem nAddr_dvd (c : Config) : c.nAddr ∣ 65536 := by
  have h : c.nAddr ∣ 2 ^ 16 := Nat.pow_dvd_pow 2 (by omega)
  simpa using h

theorem cellIndex_lt (c : Config) (addr : Int) : cellIndex c addr < c.nAddr := by
  have hp : (0 : Int) < c.nAddr := by exact_mod_cast nAddr_pos c
  have h1 := Int.emod_nonneg addr hp.ne'
  have h2 := Int.emod_lt_of_pos addr hp
  unfold cellIndex
  omega

@[simp] theorem cellIndex_natCast (c : Config) (n : Nat) : cellIndex c (n : Int) = n % c.nAddr := by
  unfold cellIndex
  rw [← Int.natCast_mod, Int.toNat_natCast]

@[simp] theorem cellIndex_zero (c : Config) : cellIndex c 0 = 0 := by
  simp [cellIndex]

/-! ### Writes -/

@[simp] theorem memWrite_cell (addr : Int) (v : Nat) (s : State) (j : Nat) :
    (s.memWrite addr v).cell j = if cellIndex s.cfg addr = j then BitVec.ofNat 16 v else s.cell j := by
  simp [State.cell]

@[simp] theorem bump_count (i j : Nat) (s : State) :
    (s.bump i).count j = if i = j then s.count i + 1 else s.count j := by
  simp [State.count]

@[simp] theorem memWrite_count (addr : Int) (v : Nat) (s : State) (j : Nat) :
    (s.memWrite addr v).count j =
      if cellIndex s.cfg addr = j then s.count (cellIndex s.cfg addr) + 1 else s.count j := by
  simp [State.count]

/-! ### Warnings -/

/-- A bounds check changes the warnings alone (R50). -/
theorem boundsCheck_eq (origin raw : Word) (s : State) :
    s.boundsCheck origin raw =
      { s with warnings := s.warnings ++
          if flagged s.cfg raw then [{ address := raw, pc := origin, cycle := s.steps }] else [] } := by
  unfold State.boundsCheck
  split <;> simp

/-! ### Commit and advance -/

@[simp] theorem commit_cfg (s : State) : s.commit.cfg = s.cfg := by unfold State.commit; split <;> rfl

@[simp] theorem commit_wb (s : State) : s.commit.wb = s.wb := by unfold State.commit; split <;> rfl

@[simp] theorem commit_run (s : State) : s.commit.run = s.run := by unfold State.commit; split <;> rfl

@[simp] theorem commit_cause (s : State) : s.commit.cause = s.cause := by unfold State.commit; split <;> rfl

@[simp] theorem commit_rom (s : State) : s.commit.rom = s.rom := by unfold State.commit; split <;> rfl

@[simp] theorem commit_steps (s : State) : s.commit.steps = s.steps := by unfold State.commit; split <;> rfl

@[simp] theorem commit_warnings (s : State) : s.commit.warnings = s.warnings := by
  unfold State.commit; split <;> rfl

/-- The memory after step 3 (R114). -/
@[simp] theorem commit_cell (s : State) (j : Nat) : s.commit.cell j = s.afterCommit j := by
  unfold State.commit State.afterCommit
  split
  · next h => simp [h]
  · next h => simp [h]

/-- The access the commit counts (R44). -/
@[simp] theorem commit_count (s : State) (j : Nat) :
    s.commit.count j =
      if s.wb.active = true ∧ s.wb.dest.toNat % s.cfg.nAddr = j then s.count j + 1 else s.count j := by
  unfold State.commit
  split
  · next h =>
    simp only [memWrite_count, cellIndex_natCast, h, true_and]
    split
    · next hj => rw [hj]
    · rfl
  · next h => simp [h]

@[simp] theorem advance_cfg (s : State) : s.advance.cfg = s.cfg := rfl

@[simp] theorem advance_wb (s : State) : s.advance.wb = s.wb := rfl

@[simp] theorem advance_run (s : State) : s.advance.run = s.run := rfl

@[simp] theorem advance_cause (s : State) : s.advance.cause = s.cause := rfl

@[simp] theorem advance_rom (s : State) : s.advance.rom = s.rom := rfl

@[simp] theorem advance_steps (s : State) : s.advance.steps = s.steps := rfl

@[simp] theorem advance_warnings (s : State) : s.advance.warnings = s.warnings := rfl

/-- A 16-bit sum computed modulo 65536 is the word's own addition (R29). -/
theorem ofNat_succ_mod (w : Word) : BitVec.ofNat 16 ((w.toNat + 1) % wordSize) = w + 1 := by
  apply BitVec.eq_of_toNat_eq
  simp [BitVec.toNat_add, wordSize]

/-- The advance step adds 1 to cell 0 and leaves every other cell (R119). -/
@[simp] theorem advance_cell (s : State) (j : Nat) :
    s.advance.cell j = if j = 0 then s.cell 0 + 1 else s.cell j := by
  simp only [State.advance, memRead_fst, memRead_snd, cellIndex_zero, memWrite_cell, bump_cfg, bump_cell,
    ofNat_succ_mod]
  by_cases h : j = 0
  · simp [h]
  · simp [h, Ne.symm h]

/-- The advance step counts two accesses on cell 0 (R119). -/
@[simp] theorem advance_count (s : State) (j : Nat) :
    s.advance.count j = if j = 0 then s.count 0 + 2 else s.count j := by
  simp only [State.advance, memRead_fst, memRead_snd, cellIndex_zero, memWrite_count, bump_cfg, bump_count]
  by_cases h : j = 0
  · subst h
    simp only [if_true]
    rw [show (2 : BitVec 64) = 1 + 1 from rfl, BitVec.add_assoc]
  · simp [h, Ne.symm h]

/-! ### The canonical form -/

theorem bump_cellsOk {s : State} (h : s.CellsOk) {i : Nat} (hi : i < s.cfg.nAddr) : (s.bump i).CellsOk :=
  ⟨h.1, h.2.1, wf_set h.2.2.1 _ _, inWindow_set h.2.2.2 hi _⟩

theorem memRead_cellsOk {s : State} (h : s.CellsOk) (addr : Int) : (s.memRead addr).2.CellsOk :=
  bump_cellsOk h (cellIndex_lt _ _)

theorem memWrite_cellsOk {s : State} (h : s.CellsOk) (addr : Int) (v : Nat) : (s.memWrite addr v).CellsOk :=
  ⟨wf_set h.1 _ _, inWindow_set h.2.1 (cellIndex_lt _ _) _,
    wf_set h.2.2.1 _ _, inWindow_set h.2.2.2 (cellIndex_lt _ _) _⟩

theorem commit_cellsOk {s : State} (h : s.CellsOk) : s.commit.CellsOk := by
  unfold State.commit
  split
  · exact memWrite_cellsOk h _ _
  · exact h

theorem boundsCheck_cellsOk {s : State} (h : s.CellsOk) (origin raw : Word) :
    (s.boundsCheck origin raw).CellsOk := by
  rw [boundsCheck_eq]; exact h

theorem advance_cellsOk {s : State} (h : s.CellsOk) : s.advance.CellsOk :=
  memWrite_cellsOk (memRead_cellsOk h 0) _ _

theorem setPending_cellsOk {s : State} (h : s.CellsOk) (r : AluOut) : (s.setPending r).CellsOk := h

theorem countStep_cellsOk {s : State} (h : s.CellsOk) : s.countStep.CellsOk := h

theorem halt_cellsOk {s : State} (h : s.CellsOk) : s.halt.CellsOk := h

theorem takeFault_cellsOk {s : State} (h : s.CellsOk) (c : Cause) : (s.takeFault c).CellsOk := h

/-! ### Fetch -/

/-- Everything a fetch can end in (R112, R113). -/
theorem fetch_cases (s : State) :
    (s.rom.length ≤ s.pc.toNat ∧ s.fetch = .halt (s.bump 0).halt) ∨
    (∃ line e, s.rom[s.pc.toNat]? = some line ∧ decodeLine line = .error e ∧
      s.fetch = .fault ((s.bump 0).takeFault (rejectCause e))) ∨
    (∃ line i, s.rom[s.pc.toNat]? = some line ∧ decodeLine line = .ok i ∧ s.fetch = .run i (s.bump 0)) := by
  have e1 : (s.memRead 0).1 = s.pc := by simp [State.pc]
  have e2 : (s.memRead 0).2 = s.bump 0 := by simp
  unfold State.fetch
  simp only [e1, e2]
  by_cases h : s.rom.length ≤ s.pc.toNat
  · simp [h]
  · have hl : s.pc.toNat < s.rom.length := Nat.lt_of_not_le h
    have hs : s.rom[s.pc.toNat]? = some s.rom[s.pc.toNat] := List.getElem?_eq_getElem hl
    simp only [h, if_false, hs, false_and, false_or, Option.some.injEq]
    cases hd : decodeLine s.rom[s.pc.toNat] with
    | ok i => exact .inr ⟨_, i, rfl, hd, rfl⟩
    | error e => exact .inl ⟨_, e, rfl, hd, rfl⟩

end Sys2Proof.Machine
end

