-- ==== Sys2Proof/Laws/Operands.lean ====
section
/-! SUPPORT. The resolver as a pure function of the memory it reads, and what it leaves in the diagnostic state. -/

namespace Sys2Proof.Machine

/-- The trail has one address per dereference (R47). -/
theorem length_trail (n : Nat) (m : Nat → Word) (k : Nat) (v : Word) : (trail n m k v).length = k := by
  induction k generalizing v with
  | zero => rfl
  | succ k ih => simp [trail, ih]

/-- The warnings that reading the raw addresses `rs` emits (R49, R50). -/
def warningsFor (c : Config) (origin : Word) (cycle : Nat) (rs : List Word) : List Warning :=
  (rs.filter (flagged c)).map fun r => { address := r, pc := origin, cycle := cycle }

theorem warningsFor_append (c : Config) (origin : Word) (cycle : Nat) (rs rs' : List Word) :
    warningsFor c origin cycle (rs ++ rs') = warningsFor c origin cycle rs ++ warningsFor c origin cycle rs' := by
  simp [warningsFor]

/-- How often the raw addresses `rs` touch cell `j` of a window of `n` cells (R44). -/
def touches (n : Nat) (rs : List Word) (j : Nat) : Nat := (rs.map fun r => r.toNat % n).count j

/-- Everything a chain of dereferences does: its value, its counts, its warnings, and that nothing else changes. -/
structure ReadsOnly (s t : State) (origin : Word) (rs : List Word) : Prop where
  cfg : t.cfg = s.cfg
  mem : t.mem = s.mem
  wb : t.wb = s.wb
  run : t.run = s.run
  cause : t.cause = s.cause
  rom : t.rom = s.rom
  steps : t.steps = s.steps
  count : ∀ j, t.count j = s.count j + BitVec.ofNat 64 (touches s.cfg.nAddr rs j)
  warnings : t.warnings = s.warnings ++ warningsFor s.cfg origin s.steps rs
  cellsOk : s.CellsOk → t.CellsOk

theorem ReadsOnly.cell {s t : State} {origin : Word} {rs : List Word} (h : ReadsOnly s t origin rs) (j : Nat) :
    t.cell j = s.cell j := by
  simp [State.cell, h.mem]

theorem readsOnly_nil (s : State) (origin : Word) : ReadsOnly s s origin [] := by
  constructor <;> simp [touches, warningsFor]

theorem readsOnly_trans {s t u : State} {origin : Word} {rs rs' : List Word}
    (h : ReadsOnly s t origin rs) (h' : ReadsOnly t u origin rs') : ReadsOnly s u origin (rs ++ rs') where
  cfg := h'.cfg.trans h.cfg
  mem := h'.mem.trans h.mem
  wb := h'.wb.trans h.wb
  run := h'.run.trans h.run
  cause := h'.cause.trans h.cause
  rom := h'.rom.trans h.rom
  steps := h'.steps.trans h.steps
  count j := by
    rw [h'.count, h.count, h.cfg, touches, touches, touches, List.map_append, List.count_append, BitVec.add_assoc,
      BitVec.ofNat_add]
  warnings := by
    rw [h'.warnings, h.warnings, h.cfg, h.steps, warningsFor_append, List.append_assoc]
  cellsOk hs := h'.cellsOk (h.cellsOk hs)

/-- One dereference: a bounds check and a read. -/
theorem readsOnly_one (s : State) (origin v : Word) :
    ReadsOnly s ((s.boundsCheck origin v).memRead v.toNat).2 origin [v] := by
  have hb := boundsCheck_eq origin v s
  refine ⟨?_, ?_, ?_, ?_, ?_, ?_, ?_, fun j => ?_, ?_, fun h => ?_⟩
  · simp [hb]
  · simp [hb]
  · simp [hb]
  · simp [hb]
  · simp [hb]
  · simp [hb]
  · simp [hb]
  · have hc : ∀ i, (s.boundsCheck origin v).count i = s.count i := fun i => by simp [hb, State.count]
    simp only [memRead_snd, bump_count, hc, cellIndex_natCast, touches, List.map_cons, List.map_nil,
      List.count_cons, List.count_nil]
    have hcfg : (s.boundsCheck origin v).cfg = s.cfg := by simp [hb]
    rw [hcfg]
    by_cases hj : v.toNat % s.cfg.nAddr = j
    · simp [hj]
    · simp [hj]
  · by_cases hf : flagged s.cfg v <;> simp [hb, warningsFor, hf]
  · exact memRead_cellsOk (boundsCheck_cellsOk h _ _) _

/-- Everything `derefs` does. -/
theorem derefs_spec (origin : Word) (k : Nat) (v : Word) (s : State) :
    (derefs origin k v s).1 = chase s.cfg.nAddr s.cell k v ∧
    ReadsOnly s (derefs origin k v s).2 origin (trail s.cfg.nAddr s.cell k v) := by
  induction k generalizing v s with
  | zero => exact ⟨rfl, readsOnly_nil s origin⟩
  | succ k ih =>
    have h1 := readsOnly_one s origin v
    have hv : ((s.boundsCheck origin v).memRead v.toNat).1 = s.cell (v.toNat % s.cfg.nAddr) := by
      simp [boundsCheck_eq, State.cell]
    have hcell : ((s.boundsCheck origin v).memRead v.toNat).2.cell = s.cell := funext h1.cell
    obtain ⟨iv, ir⟩ := ih (s.cell (v.toNat % s.cfg.nAddr)) ((s.boundsCheck origin v).memRead v.toNat).2
    rw [h1.cfg, hcell] at iv ir
    simp only [derefs, hv, chase, trail]
    exact ⟨iv, readsOnly_trans h1 ir⟩

/-- Everything `resolve` does (R45 to R50). -/
theorem resolve_spec (origin : Word) (o : Operand) (s : State) :
    (s.resolve origin o).1 = chase s.cfg.nAddr s.cell o.mode.depth o.lit ∧
    ReadsOnly s (s.resolve origin o).2 origin (trail s.cfg.nAddr s.cell o.mode.depth o.lit) :=
  derefs_spec origin o.mode.depth o.lit s

end Sys2Proof.Machine
end

