-- ==== Sys2Proof/Laws/Cycle.lean ====
section
/-! SUPPORT. Everything steps 3 to 7 do, said once for every ALU arm, and everything a step can answer. -/

namespace Sys2Proof.Machine

/-- What steps 3 to 7 leave in the diagnostic state: the accesses counted and the warnings emitted. -/
structure DiagEnds (s t : State) (rs : List Word) : Prop where
  count : ∀ j, t.count j = s.count j + BitVec.ofNat 64 ((s.accesses rs).count j)
  warnings : t.warnings = s.warnings ++ warningsFor s.cfg s.pc s.steps rs
  cellsOk : s.CellsOk → t.CellsOk

/-- How often `accesses` names a cell: the commit, the operand reads, the advance. -/
theorem count_accesses (s : State) (rs : List Word) (j : Nat) :
    (s.accesses rs).count j =
      (if s.wb.active = true ∧ s.wb.dest.toNat % s.cfg.nAddr = j then 1 else 0) + touches s.cfg.nAddr rs j
        + (if j = 0 then 2 else 0) := by
  have e1 : (if s.wb.active then [s.wb.dest.toNat % s.cfg.nAddr] else []).count j =
      if s.wb.active = true ∧ s.wb.dest.toNat % s.cfg.nAddr = j then 1 else 0 := by
    cases s.wb.active <;> simp [List.count_singleton]
  have e2 : [0, 0].count j = if j = 0 then 2 else 0 := by
    by_cases h : j = 0
    · simp [h]
    · simp [h, Ne.symm h]
  rw [State.accesses, List.count_append, List.count_append, e1, e2, touches]

/-- Everything a cycle's steps 3 to 7 do, for any ALU arm. -/
theorem executeCycle_spec (alu : Word → Word → Word → AluOut) (o1 o2 o3 : Operand) (s : State) :
    ∃ t, executeCycle alu o1 o2 o3 s = .next t ∧
      (let r := alu (s.operandValue o1) (s.operandValue o2) (s.operandValue o3)
       CycleEnds s t { active := r.write, value := BitVec.ofNat 16 r.value, dest := r.dest }) ∧
      DiagEnds s t (s.operandTrail o1 ++ s.operandTrail o2 ++ s.operandTrail o3) := by
  have hc : s.commit.cell = s.afterCommit := funext (commit_cell s)
  obtain ⟨va, ra⟩ := resolve_spec s.pc o1 s.commit
  rw [hc, commit_cfg] at va ra
  generalize hA : s.commit.resolve s.pc o1 = A at va ra
  have hA' : A.2.cell = s.afterCommit := (funext ra.cell).trans hc
  obtain ⟨vb, rb⟩ := resolve_spec s.pc o2 A.2
  rw [hA', ra.cfg, commit_cfg] at vb rb
  generalize hB : A.2.resolve s.pc o2 = B at vb rb
  have hB' : B.2.cell = s.afterCommit := (funext rb.cell).trans hA'
  obtain ⟨vc, rc⟩ := resolve_spec s.pc o3 B.2
  rw [hB', rb.cfg, ra.cfg, commit_cfg] at vc rc
  generalize hC : B.2.resolve s.pc o3 = C at vc rc
  have hC' : C.2.cell = s.afterCommit := (funext rc.cell).trans hB'
  have h := readsOnly_trans (readsOnly_trans ra rb) rc
  refine ⟨(C.2.setPending (alu A.1 B.1 C.1)).advance.countStep, ?_, ⟨?_, fun j hj => ?_, ?_, ?_, ?_, ?_, ?_, ?_⟩,
    ⟨fun j => ?_, ?_, fun hs => ?_⟩⟩
  · simp only [executeCycle, hA, hB, hC]
  · simp [va, vb, vc, State.operandValue]
  · simp [hj, hC']
  · simp [State.pc, hC']
  · simp [h.rom]
  · simp [h.cfg]
  · simp [h.run]
  · simp [h.cause]
  · simp [h.steps]
  · rw [count_accesses, BitVec.ofNat_add, BitVec.ofNat_add]
    simp only [countStep_count, advance_count, setPending_count, h.count, commit_count, commit_cfg,
      State.operandTrail]
    split_ifs <;> simp_all <;> ac_rfl
  · simp [h.warnings, State.operandTrail]
  · exact countStep_cellsOk (advance_cellsOk (setPending_cellsOk (h.cellsOk (commit_cellsOk hs)) _))

/-- Every instruction is one cycle of some ALU arm over its own three operands; every arm's destination is `c` (R117). -/
theorem exec_is_cycle (i : Instr) : ∃ alu : Word → Word → Word → AluOut,
    (∀ a b c, (alu a b c).dest = c) ∧
    ∀ s, exec i s = executeCycle alu i.operands.1 i.operands.2.1 i.operands.2.2 s := by
  cases i with
  | mnz => exact ⟨aluMnz, fun _ _ _ => rfl, fun _ => rfl⟩
  | mlz => exact ⟨aluMlz, fun _ _ _ => rfl, fun _ => rfl⟩
  | add => exact ⟨alwaysWrites addValue, fun _ _ _ => rfl, fun _ => rfl⟩
  | sub => exact ⟨alwaysWrites subValue, fun _ _ _ => rfl, fun _ => rfl⟩
  | and => exact ⟨alwaysWrites andValue, fun _ _ _ => rfl, fun _ => rfl⟩
  | or => exact ⟨alwaysWrites orValue, fun _ _ _ => rfl, fun _ => rfl⟩
  | xor => exact ⟨alwaysWrites xorValue, fun _ _ _ => rfl, fun _ => rfl⟩
  | ant => exact ⟨alwaysWrites antValue, fun _ _ _ => rfl, fun _ => rfl⟩
  | sl => exact ⟨alwaysWrites slValue, fun _ _ _ => rfl, fun _ => rfl⟩
  | srl => exact ⟨alwaysWrites srlValue, fun _ _ _ => rfl, fun _ => rfl⟩
  | sra => exact ⟨alwaysWrites sraValue, fun _ _ _ => rfl, fun _ => rfl⟩
  | sru => exact ⟨alwaysWrites sruValue, fun _ _ _ => rfl, fun _ => rfl⟩
  | sre => exact ⟨alwaysWrites sreValue, fun _ _ _ => rfl, fun _ => rfl⟩

/-! ### The pending write-back and the next instruction -/

/-- A chain of dereferences neither reads `wb` nor lets the origin PC or the warnings reach anything but the warnings. -/
theorem derefs_origin (origin origin' : Word) (wb : WriteBack) (n : Nat) (v : Word) (s : State) (ws : List Warning) :
    ∃ ws', derefs origin' n v { s with wb := wb, warnings := ws } =
      ((derefs origin n v s).1, { (derefs origin n v s).2 with wb := wb, warnings := ws' }) := by
  induction n generalizing v s ws with
  | zero => exact ⟨ws, rfl⟩
  | succ n ih =>
    have e : ∃ ws', ({ s with wb := wb, warnings := ws } : State).boundsCheck origin' v =
        { s.boundsCheck origin v with wb := wb, warnings := ws' } := by
      unfold State.boundsCheck
      by_cases h : flagged s.cfg v <;> simp [h]
    obtain ⟨ws', e⟩ := e
    simp only [derefs, e]
    exact ih _ ((s.boundsCheck origin v).memRead v.toNat).2 ws'

/-- With one origin the warnings agree too. -/
theorem derefs_wb (origin : Word) (wb : WriteBack) (n : Nat) (v : Word) (s : State) :
    derefs origin n v { s with wb := wb } = ((derefs origin n v s).1, { (derefs origin n v s).2 with wb := wb }) := by
  induction n generalizing v s with
  | zero => rfl
  | succ n ih =>
    have e : ({ s with wb := wb } : State).boundsCheck origin v = { s.boundsCheck origin v with wb := wb } := by
      unfold State.boundsCheck
      by_cases h : flagged s.cfg v <;> simp [h]
    simp only [derefs, e]
    exact ih _ ((s.boundsCheck origin v).memRead v.toNat).2

/-- Committing the pending result first, by hand, is what step 3 does. -/
theorem commit_eq_committed {s : State} (h : s.wb.active = true) :
    s.committed = { s.commit with wb := { s.wb with active := false } } := by
  simp [State.committed, State.commit, h]

theorem commit_of_committed (s : State) : s.committed.commit = s.committed := by
  simp [State.committed, State.commit]

/-- A pending result for another cell than the PC: an instruction runs as if the result were in memory already. -/
theorem exec_committed (i : Instr) {s : State} (h : s.wb.active = true) (hd : s.wb.dest.toNat % s.cfg.nAddr ≠ 0) :
    exec i s = exec i s.committed := by
  obtain ⟨alu, -, he⟩ := exec_is_cycle i
  have hpc : s.committed.pc = s.pc := by
    simp [State.pc, State.committed, State.cell, State.memWrite, hd]
  rw [he, he, executeCycle, executeCycle, hpc, commit_of_committed, commit_eq_committed h]
  simp only [State.resolve, derefs_wb]
  rfl

/-- Any pending result: the same, but for the PC the warnings report (R50, R124). -/
theorem exec_committed_warnings (i : Instr) {s : State} (h : s.wb.active = true) :
    ∃ t u, exec i s = .next t ∧ exec i s.committed = .next u ∧ t = { u with warnings := t.warnings } := by
  obtain ⟨alu, -, he⟩ := exec_is_cycle i
  refine ⟨_, _, he s, he s.committed, ?_⟩
  simp only [State.resolve, commit_of_committed]
  generalize s.committed.pc = p
  rw [commit_eq_committed h]
  generalize s.commit = c
  generalize hw : ({ s.wb with active := false } : WriteBack) = wb
  obtain ⟨w1, e1⟩ := derefs_origin s.pc p wb i.operands.1.mode.depth i.operands.1.lit c c.warnings
  generalize derefs s.pc i.operands.1.mode.depth i.operands.1.lit c = A at e1
  obtain ⟨w2, e2⟩ := derefs_origin s.pc p wb i.operands.2.1.mode.depth i.operands.2.1.lit A.2 w1
  generalize derefs s.pc i.operands.2.1.mode.depth i.operands.2.1.lit A.2 = B at e2
  obtain ⟨w3, e3⟩ := derefs_origin s.pc p wb i.operands.2.2.mode.depth i.operands.2.2.lit B.2 w2
  generalize derefs s.pc i.operands.2.2.mode.depth i.operands.2.2.lit B.2 = C at e3
  have e1' : derefs p i.operands.1.mode.depth i.operands.1.lit { c with wb := wb } = _ := e1
  simp only [e1', e2, e3]
  rfl

/-- Everything a step can answer (R111 to R113, R209). -/
theorem step_cases (s : State) :
    (s.run ≠ .running ∧ step s = .next s) ∨
    (s.run = .running ∧ s.rom.length ≤ s.pc.toNat ∧ step s = .next (s.bump 0).halt) ∨
    (s.run = .running ∧ ∃ line e, s.rom[s.pc.toNat]? = some line ∧ decodeLine line = .error e ∧
      step s = .next ((s.bump 0).takeFault (rejectCause e))) ∨
    (s.run = .running ∧ ∃ line i, s.rom[s.pc.toNat]? = some line ∧ decodeLine line = .ok i ∧
      step s = exec i (s.bump 0)) := by
  rcases hr : s.run with _ | _ | _
  · rcases fetch_cases s with ⟨h, hf⟩ | ⟨l, e, h, hd, hf⟩ | ⟨l, i, h, hd, hf⟩
    · exact .inr (.inl ⟨rfl, h, by simp [step, hr, hf]⟩)
    · exact .inr (.inr (.inl ⟨rfl, l, e, h, hd, by simp [step, hr, hf]⟩))
    · exact .inr (.inr (.inr ⟨rfl, l, i, h, hd, by simp [step, hr, hf]⟩))
  · exact .inl ⟨by simp, by simp [step, hr]⟩
  · exact .inl ⟨by simp, by simp [step, hr]⟩

end Sys2Proof.Machine
end

