-- ==== Sys2Proof/Laws/Encoding.lean ====
section
/-! SUPPORT. The fields of a word put together from fields, and the tables of the encoding read both ways. -/

namespace Sys2Proof

/-- The word whose fields, most significant first, are these (R81). -/
abbrev diwOf (f : BitVec 4) (m1 : BitVec 2) (l1 : Word) (m2 : BitVec 2) (l2 : Word) (m3 : BitVec 2) (l3 : Word) : Diw :=
  f ++ m1 ++ l1 ++ m2 ++ l2 ++ m3 ++ l3

section
variable (f : BitVec 4) (m1 m2 m3 : BitVec 2) (l1 l2 l3 : Word)

theorem diwOf_opc : (diwOf f m1 l1 m2 l2 m3 l3).extractLsb' 54 4 = f := by
  apply BitVec.eq_of_getLsbD_eq
  intro i hi
  simp (disch := omega) only [BitVec.getLsbD_extractLsb', BitVec.getLsbD_append, hi, decide_true, Bool.true_and,
    if_neg]
  congr 1; omega

theorem diwOf_m1 : (diwOf f m1 l1 m2 l2 m3 l3).extractLsb' 52 2 = m1 := by
  apply BitVec.eq_of_getLsbD_eq
  intro i hi
  simp (disch := omega) only [BitVec.getLsbD_extractLsb', BitVec.getLsbD_append, hi, decide_true, Bool.true_and,
    if_neg, if_pos]
  congr 1; omega

theorem diwOf_l1 : (diwOf f m1 l1 m2 l2 m3 l3).extractLsb' 36 16 = l1 := by
  apply BitVec.eq_of_getLsbD_eq
  intro i hi
  simp (disch := omega) only [BitVec.getLsbD_extractLsb', BitVec.getLsbD_append, hi, decide_true, Bool.true_and,
    if_neg, if_pos]
  congr 1; omega

theorem diwOf_m2 : (diwOf f m1 l1 m2 l2 m3 l3).extractLsb' 34 2 = m2 := by
  apply BitVec.eq_of_getLsbD_eq
  intro i hi
  simp (disch := omega) only [BitVec.getLsbD_extractLsb', BitVec.getLsbD_append, hi, decide_true, Bool.true_and,
    if_neg, if_pos]
  congr 1; omega

theorem diwOf_l2 : (diwOf f m1 l1 m2 l2 m3 l3).extractLsb' 18 16 = l2 := by
  apply BitVec.eq_of_getLsbD_eq
  intro i hi
  simp (disch := omega) only [BitVec.getLsbD_extractLsb', BitVec.getLsbD_append, hi, decide_true, Bool.true_and,
    if_neg, if_pos]
  congr 1; omega

theorem diwOf_m3 : (diwOf f m1 l1 m2 l2 m3 l3).extractLsb' 16 2 = m3 := by
  apply BitVec.eq_of_getLsbD_eq
  intro i hi
  simp (disch := omega) only [BitVec.getLsbD_extractLsb', BitVec.getLsbD_append, hi, decide_true, Bool.true_and,
    if_neg, if_pos]
  congr 1; omega

theorem diwOf_l3 : (diwOf f m1 l1 m2 l2 m3 l3).extractLsb' 0 16 = l3 := by
  apply BitVec.eq_of_getLsbD_eq
  intro i hi
  simp (disch := omega) only [BitVec.getLsbD_extractLsb', BitVec.getLsbD_append, hi, decide_true, Bool.true_and,
    if_pos]
  congr 1; omega

end

/-- Every word is put together from its own fields. -/
theorem diwOf_fields (w : Diw) :
    diwOf (w.extractLsb' 54 4) (w.extractLsb' 52 2) (w.extractLsb' 36 16) (w.extractLsb' 34 2)
      (w.extractLsb' 18 16) (w.extractLsb' 16 2) (w.extractLsb' 0 16) = w := by
  apply BitVec.eq_of_getLsbD_eq
  intro i hi
  simp only [BitVec.getLsbD_append, BitVec.getLsbD_extractLsb']
  split_ifs <;> (rw [decide_eq_true (by omega), Bool.true_and]; congr 1; omega)

theorem encode_eq (i : Instr) : encode i =
    diwOf i.opcode.field i.operands.1.mode.field i.operands.1.lit i.operands.2.1.mode.field i.operands.2.1.lit
      i.operands.2.2.mode.field i.operands.2.2.lit := rfl

theorem modeOfField_field (m : Mode) : modeOfField m.field = m := by cases m <;> rfl

theorem field_modeOfField (f : BitVec 2) : (modeOfField f).field = f := by revert f; decide

theorem opcodeOfField_field (op : Opcode) : opcodeOfField op.field = some op := by cases op <;> rfl

theorem field_of_opcodeOfField (f : BitVec 4) (op : Opcode) : opcodeOfField f = some op → op.field = f := by
  cases op <;> revert f <;> decide

theorem opcodeOfField_eq_none (f : BitVec 4) : opcodeOfField f = none ↔ 13 ≤ f.toNat := by revert f; decide

theorem opcodeOfToken_mnemonic (op : Opcode) : opcodeOfToken op.mnemonic = some op := by cases op <;> rfl

theorem mnemonic_of_opcodeOfToken {t : List Char} {op : Opcode} (h : opcodeOfToken t = some op) : op.mnemonic = t := by
  simpa using List.find?_some h

@[simp] theorem opcode_instr (op : Opcode) (o1 o2 o3 : Operand) : (op.instr o1 o2 o3).opcode = op := by cases op <;> rfl

@[simp] theorem operands_instr (op : Opcode) (o1 o2 o3 : Operand) : (op.instr o1 o2 o3).operands = (o1, o2, o3) := by
  cases op <;> rfl

theorem instr_eta (i : Instr) : i.opcode.instr i.operands.1 i.operands.2.1 i.operands.2.2 = i := by cases i <;> rfl

end Sys2Proof
end

