-- ==== Sys2Proof/Laws/Launch.lean ====
section
/-! SUPPORT. What the host's operations do: the window, the power-on memory, the loader, the launch, the readout. -/

namespace Sys2Proof.Machine

/-! ### The window -/

theorem windowOf_some {n : Nat} {k : Fin 15} (h : windowOf n = some k) : 2 ^ (k.val + 2) = n := by
  simpa using List.find?_some h

theorem windowOf_isSome (k : Fin 15) : ∃ k', windowOf (2 ^ (k.val + 2)) = some k' := by
  revert k; decide

/-- A size has a window exactly when R12 admits it. -/
theorem windowOf_eq_none (n : Nat) : windowOf n = none ↔ ¬ ∃ k, 2 ≤ k ∧ k ≤ 16 ∧ n = 2 ^ k := by
  constructor
  · rintro h ⟨k, h2, h16, rfl⟩
    obtain ⟨k', hk'⟩ := windowOf_isSome ⟨k - 2, by omega⟩
    have e : k - 2 + 2 = k := by omega
    simp only [e] at hk'
    rw [h] at hk'
    cases hk'
  · intro h
    cases hw : windowOf n with
    | none => rfl
    | some k => exact absurd ⟨k.val + 2, by omega, by omega, (windowOf_some hw).symm⟩ h

@[simp] theorem launchConfig_nAddr (inp : LaunchInput) (k : Fin 15) :
    (launchConfig inp k).nAddr = 2 ^ (k.val + 2) := rfl

/-! ### The power-on memory -/

theorem get_foldl_set (l : List (Nat × Word)) (m : Memory) (j : Nat) :
    Cells.get (l.foldl (fun m x => Cells.set m x.1 x.2) m) j =
      (((l.filter fun x => x.1 == j).getLast?).map fun x => x.2).getD (Cells.get m j) := by
  induction l generalizing m with
  | nil => simp
  | cons x rest ih =>
    obtain ⟨i, v⟩ := x
    rw [List.foldl_cons, ih, get_set, List.filter_cons]
    by_cases h : i = j
    · simp only [h, beq_self_eq_true, if_true, List.getLast?_cons, Option.map_some, Option.getD_some]
      cases (rest.filter fun x => x.1 == j).getLast? <;> simp
    · simp [h]

/-- Cell `j` of the power-on memory: cell 0 is 0, a cell of the window is `MEM0`'s value for it. -/
theorem get_powerOnMemory (n : Nat) (mem0 : List (Nat × Word)) (j : Nat) :
    Cells.get (powerOnMemory n mem0) j = if 0 < j ∧ j < n then mem0Value mem0 j else 0 := by
  unfold powerOnMemory
  rw [get_foldl_set, List.filter_filter, mem0Value]
  by_cases h : 0 < j ∧ j < n
  · rw [if_pos h]
    have e : (mem0.filter fun a => (a.1 == j) && (decide (0 < a.1) && decide (a.1 < n))) =
        mem0.filter fun x => x.1 == j := by
      apply List.filter_congr
      intro x _
      by_cases hx : x.1 = j
      · simp [hx, h]
      · simp [hx]
    rw [e]; rfl
  · rw [if_neg h]
    have e : (mem0.filter fun a => (a.1 == j) && (decide (0 < a.1) && decide (a.1 < n))) = [] := by
      apply List.filter_eq_nil_iff.mpr
      intro x _ hx
      simp only [Bool.and_eq_true, beq_iff_eq, decide_eq_true_eq] at hx
      exact h ⟨hx.1 ▸ hx.2.1, hx.1 ▸ hx.2.2⟩
    rw [e]; rfl

theorem powerOnMemory_ok (n : Nat) (mem0 : List (Nat × Word)) :
    Memory.wf (powerOnMemory n mem0) ∧ Cells.inWindow n (powerOnMemory n mem0) := by
  unfold powerOnMemory
  have hl : ∀ x ∈ mem0.filter fun x => decide (0 < x.1) && decide (x.1 < n), x.1 < n := by
    intro x hx
    simp only [List.mem_filter, Bool.and_eq_true, decide_eq_true_eq] at hx
    exact hx.2.2
  generalize (mem0.filter fun x => decide (0 < x.1) && decide (x.1 < n)) = l at hl
  have hm : Memory.wf [] ∧ Cells.inWindow n ([] : Memory) :=
    ⟨⟨List.Pairwise.nil, by simp⟩, by simp⟩
  generalize ([] : Memory) = m at hm
  induction l generalizing m with
  | nil => exact hm
  | cons x rest ih =>
    exact ih (fun y hy => hl y (by simp [hy])) _
      ⟨wf_set hm.1 _ _, inWindow_set hm.2 (hl x (by simp)) _⟩

/-! ### The loader -/

/-- The loader changes memory and counters alone. -/
theorem loadWords_frame (addr : Int) (ws : List Word) (s : State) :
    loadWords addr ws s = { s with mem := (loadWords addr ws s).mem, cnt := (loadWords addr ws s).cnt } := by
  induction ws generalizing addr s with
  | nil => rfl
  | cons w rest ih => rw [loadWords, ih]; rfl

@[simp] theorem loadWords_cfg (addr : Int) (ws : List Word) (s : State) : (loadWords addr ws s).cfg = s.cfg := by
  rw [loadWords_frame]

theorem loadWords_cellsOk {s : State} (h : s.CellsOk) (addr : Int) (ws : List Word) :
    (loadWords addr ws s).CellsOk := by
  induction ws generalizing addr s with
  | nil => exact h
  | cons w rest ih => exact ih (memWrite_cellsOk h _ _) _

/-- A cell that no word is written to keeps its value and counter. -/
theorem loadWords_untouched (addr : Int) (ws : List Word) (s : State) (j : Nat)
    (h : ∀ k : Nat, k < ws.length → cellIndex s.cfg (addr + k) ≠ j) :
    (loadWords addr ws s).cell j = s.cell j ∧ (loadWords addr ws s).count j = s.count j := by
  induction ws generalizing addr s with
  | nil => exact ⟨rfl, rfl⟩
  | cons w rest ih =>
    have h0 : cellIndex s.cfg addr ≠ j := by simpa using h 0 (by simp)
    obtain ⟨e1, e2⟩ := ih (addr + 1) (s.memWrite addr w.toNat) fun k hk => by
      have := h (k + 1) (by simpa using hk)
      rw [memWrite_cfg, show addr + 1 + (k : Int) = addr + ((k + 1 : Nat) : Int) by push_cast; ring]
      exact this
    exact ⟨by rw [loadWords, e1, memWrite_cell, if_neg h0], by rw [loadWords, e2, memWrite_count, if_neg h0]⟩

/-- A word whose cell no other word is written to is in memory, with one access counted on its cell. -/
theorem loadWords_written (addr : Int) (ws : List Word) (s : State) (k : Nat) (w : Word) (hw : ws[k]? = some w)
    (h : ∀ k' : Nat, k' < ws.length → k' ≠ k → cellIndex s.cfg (addr + k') ≠ cellIndex s.cfg (addr + k)) :
    (loadWords addr ws s).cell (cellIndex s.cfg (addr + k)) = w ∧
    (loadWords addr ws s).count (cellIndex s.cfg (addr + k)) = s.count (cellIndex s.cfg (addr + k)) + 1 := by
  induction ws generalizing addr s k with
  | nil => simp at hw
  | cons x rest ih =>
    have shift : ∀ n : Nat, addr + 1 + (n : Int) = addr + ((n + 1 : Nat) : Int) := fun n => by push_cast; ring
    cases k with
    | zero =>
      obtain rfl : x = w := by simpa using hw
      obtain ⟨e1, e2⟩ := loadWords_untouched (addr + 1) rest (s.memWrite addr x.toNat) (cellIndex s.cfg addr)
        fun n hn => by
          have := h (n + 1) (by simpa using hn) (by omega)
          rw [memWrite_cfg, shift]
          simpa using this
      simp only [Nat.cast_zero, add_zero]
      exact ⟨by rw [loadWords, e1]; simp, by rw [loadWords, e2]; simp⟩
    | succ k =>
      obtain ⟨e1, e2⟩ := ih (addr + 1) (s.memWrite addr x.toNat) k (by simpa using hw) fun n hn hne => by
        have := h (n + 1) (by simpa using hn) (by omega)
        rw [memWrite_cfg, shift, shift]
        exact this
      have h0 := h 0 (by simp) (by omega)
      simp only [Nat.cast_zero, add_zero] at h0
      rw [memWrite_cfg, shift] at e1 e2
      exact ⟨e1, by rw [loadWords, e2, memWrite_count, if_neg h0]⟩

/-- When no word lands on cell 0, no two words land on one cell. -/
theorem inputCells_distinct {c : Config} {n : Nat} (h : inputOnPc c n = false) {k k' : Nat} (hk : k < n) (hk' : k' < n)
    (hne : k' ≠ k) : cellIndex c (c.inBase + k') ≠ cellIndex c (c.inBase + k) := by
  have hp : (0 : Int) < c.nAddr := by exact_mod_cast nAddr_pos c
  have hz : ∀ m : Nat, m < n → (c.inBase + m) % (c.nAddr : Int) ≠ 0 := by
    intro m hm he
    have := List.any_eq_false.mp h m (List.mem_range.mpr hm)
    simp [cellIndex, he] at this
  intro he
  have e1 := Int.emod_nonneg (c.inBase + k) hp.ne'
  have e2 := Int.emod_nonneg (c.inBase + k') hp.ne'
  have e3 : (c.inBase + k') % (c.nAddr : Int) = (c.inBase + k) % (c.nAddr : Int) := by
    unfold cellIndex at he; omega
  have key : ∀ a b : Nat, a < b → b < n →
      (c.inBase + a) % (c.nAddr : Int) = (c.inBase + b) % (c.nAddr : Int) → False := by
    intro a b hab hb hmod
    have hlt := Int.emod_lt_of_pos (c.inBase + a) hp
    have hnn := Int.emod_nonneg (c.inBase + a) hp.ne'
    have hdvd : (c.nAddr : Int) ∣ (c.inBase + b) - (c.inBase + a) := Int.ModEq.dvd hmod
    have hge : (c.nAddr : Int) ≤ b - a := by
      have := Int.le_of_dvd (by omega) hdvd
      omega
    let r := ((c.nAddr : Int) - (c.inBase + a) % c.nAddr).toNat
    have hr : (r : Int) = (c.nAddr : Int) - (c.inBase + a) % c.nAddr := Int.toNat_of_nonneg (by omega)
    refine hz (a + r) (by omega) ?_
    have := Int.mul_ediv_add_emod (c.inBase + a) c.nAddr
    have e : c.inBase + ((a + r : Nat) : Int) = c.nAddr * ((c.inBase + a) / c.nAddr + 1) := by
      push_cast
      rw [hr]
      linarith
    rw [e, Int.mul_emod_right]
  rcases Nat.lt_or_gt_of_ne hne with hl | hl
  · exact key k' k hl hk e3
  · exact key k k' hl hk' e3.symm

/-- The words in memory are those no later word overwrites. -/
theorem loadWords_last (addr : Int) (ws : List Word) (s : State) (k : Nat) (w : Word) (hw : ws[k]? = some w)
    (h : ∀ k' : Nat, k < k' → k' < ws.length → cellIndex s.cfg (addr + k') ≠ cellIndex s.cfg (addr + k)) :
    (loadWords addr ws s).cell (cellIndex s.cfg (addr + k)) = w := by
  induction ws generalizing addr s k with
  | nil => simp at hw
  | cons x rest ih =>
    have shift : ∀ n : Nat, addr + 1 + (n : Int) = addr + ((n + 1 : Nat) : Int) := fun n => by push_cast; ring
    cases k with
    | zero =>
      obtain rfl : x = w := by simpa using hw
      have e := loadWords_untouched (addr + 1) rest (s.memWrite addr x.toNat) (cellIndex s.cfg addr) fun n hn => by
        have := h (n + 1) (by omega) (by simpa using hn)
        rw [memWrite_cfg, shift]
        simpa using this
      simp only [Nat.cast_zero, add_zero]
      rw [loadWords, e.1]; simp
    | succ k =>
      have e := ih (addr + 1) (s.memWrite addr x.toNat) k (by simpa using hw) fun n h1 h2 => by
        have := h (n + 1) (by omega) (by simpa using h2)
        rw [memWrite_cfg, shift, shift]
        exact this
      rwa [memWrite_cfg, shift] at e

/-- Each word counts one access on the cell it is written to. -/
theorem loadWords_count (addr : Int) (ws : List Word) (s : State) (j : Nat) :
    (loadWords addr ws s).count j = s.count j +
      BitVec.ofNat 64 (((List.range ws.length).map fun k => cellIndex s.cfg (addr + (k : Nat))).count j) := by
  induction ws generalizing addr s with
  | nil => simp [loadWords]
  | cons w rest ih =>
    have e : (List.range rest.length).map (fun k => cellIndex s.cfg (addr + 1 + (k : Nat))) =
        (List.range rest.length).map ((fun k => cellIndex s.cfg (addr + (k : Nat))) ∘ Nat.succ) :=
      List.map_congr_left fun k _ => by
        simp only [Function.comp]; congr 1; push_cast; ring
    rw [loadWords, ih, memWrite_cfg, memWrite_count, e, List.length_cons, List.range_succ_eq_map, List.map_cons,
      List.map_map, List.count_cons, BitVec.ofNat_add]
    by_cases h : cellIndex s.cfg addr = j
    · simp [h]; ac_rfl
    · simp [h]

/-! ### The launch -/

/-- A readable launch is refused, or is the loaded state (R232, R235). -/
theorem launch_readable {inp : LaunchInput} {bs : List Byte} (hin : inp.input = .bytes bs) :
    (∃ r, launch inp = .refused r) ∨
    ∃ k rom, windowOf inp.nAddr = some k ∧ romLines inp.rom = .ok rom ∧
      inputOnPc (launchConfig inp k) (packWords bs).length = false ∧
      launch inp = .next (loadedState (launchConfig inp k) inp rom) := by
  unfold launch
  rw [hin]
  cases hw : windowOf inp.nAddr with
  | none => exact .inl ⟨_, rfl⟩
  | some k =>
    cases hr : romLines inp.rom with
    | error w => exact .inl ⟨_, rfl⟩
    | ok rom =>
      cases hp : inputOnPc (launchConfig inp k) (packWords bs).length with
      | true => exact .inl ⟨.inputOnPc, by simp [hp]⟩
      | false => exact .inr ⟨k, rom, rfl, rfl, hp, by simp [hp]⟩

/-- An unreadable launch is the loaded state, or an input error where no state can hold the window or the ROM (R232, R236). -/
theorem launch_unreadable {inp : LaunchInput} {ws : List Word} (hin : inp.input = .unreadable ws) :
    (∃ k rom, windowOf inp.nAddr = some k ∧ romLines inp.rom = .ok rom ∧
      launch inp = .next (loadedState (launchConfig inp k) inp rom)) ∨
    ((windowOf inp.nAddr = none ∨ ∃ w, romLines inp.rom = .error w) ∧
      launch inp = .fault (.failedRun .inputError)) := by
  unfold launch
  rw [hin]
  cases hw : windowOf inp.nAddr with
  | none => exact .inr ⟨.inl rfl, rfl⟩
  | some k =>
    cases hr : romLines inp.rom with
    | error w => exact .inr ⟨.inr ⟨w, rfl⟩, rfl⟩
    | ok rom => exact .inl ⟨k, rom, rfl, rfl, rfl⟩

/-- The state a launch leaves, if it leaves one. -/
theorem launch_next {inp : LaunchInput} {s : State} (h : launch inp = .next s) :
    ∃ k rom, windowOf inp.nAddr = some k ∧ romLines inp.rom = .ok rom ∧
      s = loadedState (launchConfig inp k) inp rom := by
  cases hin : inp.input with
  | bytes bs =>
    rcases launch_readable hin with ⟨r, e⟩ | ⟨k, rom, hw, hr, -, e⟩ <;> rw [e] at h <;> cases h
    exact ⟨k, rom, hw, hr, rfl⟩
  | unreadable ws =>
    rcases launch_unreadable hin with ⟨k, rom, hw, hr, e⟩ | ⟨-, e⟩ <;> rw [e] at h <;> cases h
    exact ⟨k, rom, hw, hr, rfl⟩

/-! ### The readout -/

/-- Everything `readDown` does: the low bytes downwards, one access counted for each, nothing else changed (R243). -/
theorem readDown_spec (n : Nat) (addr : Int) (s : State) :
    (readDown n addr s).1 = (List.range n).map (fun k => (s.cell (cellIndex s.cfg (addr - (k : Nat)))).extractLsb' 0 8) ∧
    (readDown n addr s).2 = { s with cnt := (readDown n addr s).2.cnt } ∧
    ∀ j, (readDown n addr s).2.count j = s.count j +
      BitVec.ofNat 64 (((List.range n).map fun k => cellIndex s.cfg (addr - (k : Nat))).count j) := by
  induction n generalizing addr s with
  | zero => simp [readDown]
  | succ n ih =>
    have shift : ∀ k : Nat, addr - 1 - (k : Int) = addr - ((k + 1 : Nat) : Int) := fun k => by push_cast; ring
    obtain ⟨e1, e2, e3⟩ := ih (addr - 1) (s.memRead addr).2
    refine ⟨?_, ?_, fun j => ?_⟩
    · rw [readDown, e1, List.range_succ_eq_map, List.map_cons, List.map_map]
      simp only [shift]
      simp [State.memRead, State.cell, State.bump, Function.comp_def]
    · rw [readDown, e2]; rfl
    · rw [readDown, e3, List.range_succ_eq_map, List.map_cons, List.map_map, List.count_cons, BitVec.ofNat_add]
      simp only [shift, memRead_snd, bump_count, bump_cfg, Function.comp_def, Nat.succ_eq_add_one]
      by_cases h : cellIndex s.cfg addr = j
      · simp [h]; ac_rfl
      · simp [h]

end Sys2Proof.Machine
end

