-- ==== Sys2Proof/Laws/PerInstr.lean ====
section
/-! SUPPORT. Statements about every instruction, one lemma per constructor. -/

/-- The word of an instruction carries the opcode field of its table row, and that field and the row's mnemonic both select its
opcode (spec/30_encoding.md R82, R88). -/
def Sys2Proof.Laws.OpcodeSelects.Statement (i : Sys2Proof.Instr) : Prop :=
  (Sys2Proof.encode i).extractLsb' 54 4 = i.opcode.field ∧
  Sys2Proof.opcodeOfField i.opcode.field = some i.opcode ∧
  Sys2Proof.opcodeOfToken i.opcode.mnemonic = some i.opcode

namespace Sys2Proof.Laws.OpcodeSelects

theorem mnz (o1 o2 o3 : Operand) : Statement (.mnz o1 o2 o3) :=
  ⟨diwOf_opc _ _ _ _ _ _ _, rfl, rfl⟩

theorem mlz (o1 o2 o3 : Operand) : Statement (.mlz o1 o2 o3) :=
  ⟨diwOf_opc _ _ _ _ _ _ _, rfl, rfl⟩

theorem add (o1 o2 o3 : Operand) : Statement (.add o1 o2 o3) :=
  ⟨diwOf_opc _ _ _ _ _ _ _, rfl, rfl⟩

theorem sub (o1 o2 o3 : Operand) : Statement (.sub o1 o2 o3) :=
  ⟨diwOf_opc _ _ _ _ _ _ _, rfl, rfl⟩

theorem and (o1 o2 o3 : Operand) : Statement (.and o1 o2 o3) :=
  ⟨diwOf_opc _ _ _ _ _ _ _, rfl, rfl⟩

theorem or (o1 o2 o3 : Operand) : Statement (.or o1 o2 o3) :=
  ⟨diwOf_opc _ _ _ _ _ _ _, rfl, rfl⟩

theorem xor (o1 o2 o3 : Operand) : Statement (.xor o1 o2 o3) :=
  ⟨diwOf_opc _ _ _ _ _ _ _, rfl, rfl⟩

theorem ant (o1 o2 o3 : Operand) : Statement (.ant o1 o2 o3) :=
  ⟨diwOf_opc _ _ _ _ _ _ _, rfl, rfl⟩

theorem sl (o1 o2 o3 : Operand) : Statement (.sl o1 o2 o3) :=
  ⟨diwOf_opc _ _ _ _ _ _ _, rfl, rfl⟩

theorem srl (o1 o2 o3 : Operand) : Statement (.srl o1 o2 o3) :=
  ⟨diwOf_opc _ _ _ _ _ _ _, rfl, rfl⟩

theorem sra (o1 o2 o3 : Operand) : Statement (.sra o1 o2 o3) :=
  ⟨diwOf_opc _ _ _ _ _ _ _, rfl, rfl⟩

theorem sru (o1 o2 o3 : Operand) : Statement (.sru o1 o2 o3) :=
  ⟨diwOf_opc _ _ _ _ _ _ _, rfl, rfl⟩

theorem sre (o1 o2 o3 : Operand) : Statement (.sre o1 o2 o3) :=
  ⟨diwOf_opc _ _ _ _ _ _ _, rfl, rfl⟩

end Sys2Proof.Laws.OpcodeSelects
end

