-- ==== Sys2Proof/Laws/Text.lean ====
section
/-! SUPPORT. What each token reader of the line decoder accepts, said once per reader. -/

namespace Sys2Proof.Machine

/-- The list does not begin with a character of the class `p`. -/
def StopsBefore (p : Char → Bool) (cs : List Char) : Prop := ∀ ch rest, cs = ch :: rest → p ch = false

theorem stopsBefore_nil (p : Char → Bool) : StopsBefore p [] := by
  intro ch rest h; cases h

theorem stopsBefore_cons {p : Char → Bool} {ch : Char} {rest : List Char} (h : p ch = false) :
    StopsBefore p (ch :: rest) := by
  intro c r e; cases e; exact h

theorem stopsBefore_dropWhile (p : Char → Bool) (cs : List Char) : StopsBefore p (cs.dropWhile p) := by
  induction cs with
  | nil => exact stopsBefore_nil p
  | cons ch rest ih =>
    rw [List.dropWhile_cons]
    split
    · exact ih
    · next h => exact stopsBefore_cons (by simpa using h)

theorem takeWhile_all (p : Char → Bool) (cs : List Char) : ∀ ch ∈ cs.takeWhile p, p ch = true := by
  intro ch h
  exact List.mem_takeWhile_imp h

theorem takeWhile_of_stops {p : Char → Bool} {w rest : List Char} (hw : ∀ ch ∈ w, p ch = true)
    (hr : StopsBefore p rest) : (w ++ rest).takeWhile p = w ∧ (w ++ rest).dropWhile p = rest := by
  induction w with
  | nil =>
    cases rest with
    | nil => exact ⟨rfl, rfl⟩
    | cons ch t => simp [hr ch t rfl]
  | cons ch t ih =>
    have h := hw ch (by simp)
    obtain ⟨i1, i2⟩ := ih fun c hc => hw c (by simp [hc])
    simp [h, i1, i2]

theorem isWs_iff (ch : Char) : isWs ch = true ↔ ch = ' ' ∨ ch = '\t' := by simp [isWs]

theorem blank_iff (cs : List Char) : Blank cs ↔ ∀ ch ∈ cs, isWs ch = true := by
  simp only [Blank, isWs_iff]

/-- `skipWs` reads `ws+`. -/
theorem skipWs_eq_some (cs rest : List Char) :
    skipWs cs = some rest ↔ ∃ w, cs = w ++ rest ∧ Blank w ∧ w ≠ [] ∧ StopsBefore isWs rest := by
  constructor
  · intro h
    cases cs with
    | nil => cases h
    | cons ch t =>
      by_cases hch : isWs ch = true
      · simp only [skipWs, hch, if_true, Option.some.injEq] at h
        subst h
        refine ⟨ch :: t.takeWhile isWs, by simp, (blank_iff _).mpr ?_, by simp, stopsBefore_dropWhile _ _⟩
        intro c hc
        rcases List.mem_cons.mp hc with rfl | hc
        · exact hch
        · exact takeWhile_all _ _ c hc
      · simp [skipWs, hch] at h
  · rintro ⟨w, rfl, hb, hne, hs⟩
    cases w with
    | nil => exact absurd rfl hne
    | cons ch t =>
      have hb' := (blank_iff _).mp hb
      have := (takeWhile_of_stops (w := t) (fun c hc => hb' c (by simp [hc])) hs).2
      simp [skipWs, hb' ch (by simp), this]

/-- `takeDigits` reads `digit { digit }`. -/
theorem takeDigits_eq_some (cs : List Char) (n : Nat) (rest : List Char) :
    takeDigits cs = some (n, rest) ↔
      ∃ ds, cs = ds ++ rest ∧ Digits ds ∧ n = digitsValue ds ∧ StopsBefore Char.isDigit rest := by
  unfold takeDigits
  constructor
  · intro h
    cases ht : cs.takeWhile Char.isDigit with
    | nil => simp [ht] at h
    | cons d ds =>
      simp only [ht, Option.some.injEq, Prod.mk.injEq] at h
      obtain ⟨rfl, rfl⟩ := h
      refine ⟨d :: ds, ?_, ⟨by simp, ?_⟩, rfl, stopsBefore_dropWhile _ _⟩
      · rw [← ht, List.takeWhile_append_dropWhile]
      · rw [← ht]; exact takeWhile_all _ _
  · rintro ⟨ds, rfl, ⟨hne, hd⟩, rfl, hs⟩
    obtain ⟨e1, e2⟩ := takeWhile_of_stops hd hs
    cases ds with
    | nil => exact absurd rfl hne
    | cons d t => rw [e1, e2]

/-- The characters a token of the grammar can begin with, once the mode letter is read. -/
theorem digits_head {ds : List Char} (h : Digits ds) : ∃ d t, ds = d :: t ∧ d.isDigit = true := by
  obtain ⟨hne, hd⟩ := h
  cases ds with
  | nil => exact absurd rfl hne
  | cons d t => exact ⟨d, t, rfl, hd d (by simp)⟩

/-- `takeInt` reads `[ "-" ] digit { digit }`. -/
theorem takeInt_eq_some (cs : List Char) (z : Int) (rest : List Char) :
    takeInt cs = some (z, rest) ↔ StopsBefore Char.isDigit rest ∧ ∃ ds, Digits ds ∧
      ((cs = ds ++ rest ∧ z = digitsValue ds) ∨ (cs = '-' :: ds ++ rest ∧ z = -(digitsValue ds : Int))) := by
  have neg : ∀ t, takeInt ('-' :: t) = (takeDigits t).map fun r => (-(r.1 : Int), r.2) := fun _ => rfl
  have pos : ∀ cs : List Char, (∀ t, cs ≠ '-' :: t) →
      takeInt cs = (takeDigits cs).map fun r => ((r.1 : Int), r.2) := by
    intro cs h
    unfold takeInt
    split
    · next t => exact absurd rfl (h t)
    · rfl
  constructor
  · intro h
    by_cases hm : ∃ t, cs = '-' :: t
    · obtain ⟨t, rfl⟩ := hm
      rw [neg, Option.map_eq_some_iff] at h
      obtain ⟨⟨n, r⟩, h1, h2⟩ := h
      obtain ⟨ds, rfl, hd, rfl, hs⟩ := (takeDigits_eq_some _ _ _).mp h1
      cases h2
      exact ⟨hs, ds, hd, .inr ⟨rfl, rfl⟩⟩
    · rw [pos cs fun t ht => hm ⟨t, ht⟩, Option.map_eq_some_iff] at h
      obtain ⟨⟨n, r⟩, h1, h2⟩ := h
      obtain ⟨ds, rfl, hd, rfl, hs⟩ := (takeDigits_eq_some _ _ _).mp h1
      cases h2
      exact ⟨hs, ds, hd, .inl ⟨rfl, rfl⟩⟩
  · rintro ⟨hs, ds, hd, ⟨rfl, rfl⟩ | ⟨rfl, rfl⟩⟩
    · rw [pos, (takeDigits_eq_some _ _ _).mpr ⟨ds, rfl, hd, rfl, hs⟩]
      · rfl
      · obtain ⟨d, t, rfl, hdig⟩ := digits_head hd
        intro t' e
        cases e
        exact absurd hdig (by decide)
    · rw [List.cons_append, neg, (takeDigits_eq_some _ _ _).mpr ⟨ds, rfl, hd, rfl, hs⟩]
      rfl

/-- `takeMode` reads the letter of the mode it gives. -/
theorem takeMode_append (cs : List Char) : cs = renderMode (takeMode cs).1 ++ (takeMode cs).2 := by
  unfold takeMode
  split <;> rfl

theorem takeMode_render (m : Mode) {cs : List Char} (h : ∀ ch t, cs = ch :: t → ch ≠ 'A' ∧ ch ≠ 'B' ∧ ch ≠ 'C') :
    takeMode (renderMode m ++ cs) = (m, cs) := by
  cases m with
  | imm =>
    show takeMode cs = _
    unfold takeMode
    split
    · next t => exact absurd rfl (h _ t rfl).1
    · next t => exact absurd rfl (h _ t rfl).2.1
    · next t => exact absurd rfl (h _ t rfl).2.2
    · rfl
  | a => rfl
  | b => rfl
  | c => rfl

/-- `takeOperand` reads an operand token and stops where its digits do. -/
theorem takeOperand_eq_some (cs : List Char) (o : Operand) (rest : List Char) :
    takeOperand cs = some (o, rest) ↔
      ∃ t, cs = t ++ rest ∧ OperandToken t o ∧ StopsBefore Char.isDigit rest := by
  constructor
  · intro h
    simp only [takeOperand, Option.map_eq_some_iff] at h
    obtain ⟨⟨z, r⟩, h1, h2⟩ := h
    cases h2
    obtain ⟨hs, ds, hd, ⟨e, rfl⟩ | ⟨e, rfl⟩⟩ := (takeInt_eq_some _ _ _).mp h1
    · exact ⟨renderMode (takeMode cs).1 ++ ds, by rw [List.append_assoc, ← e, ← takeMode_append],
        ⟨ds, hd, .inl ⟨rfl, rfl⟩⟩, hs⟩
    · exact ⟨renderMode (takeMode cs).1 ++ '-' :: ds, by rw [List.append_assoc, ← e, ← takeMode_append],
        ⟨ds, hd, .inr ⟨rfl, rfl⟩⟩, hs⟩
  · rintro ⟨t, rfl, ⟨ds, hd, ⟨rfl, hl⟩ | ⟨rfl, hl⟩⟩, hs⟩
    · have hm : takeMode (renderMode o.mode ++ (ds ++ rest)) = (o.mode, ds ++ rest) := by
        apply takeMode_render
        obtain ⟨d, t, rfl, hdig⟩ := digits_head hd
        intro ch t' e
        cases e
        refine ⟨?_, ?_, ?_⟩ <;> (rintro rfl; exact absurd hdig (by decide))
      rw [List.append_assoc, takeOperand, hm,
        (takeInt_eq_some _ _ _).mpr ⟨hs, ds, hd, .inl ⟨rfl, rfl⟩⟩, Option.map_some, ← hl]
    · have hm : takeMode (renderMode o.mode ++ ('-' :: ds ++ rest)) = (o.mode, '-' :: ds ++ rest) := by
        apply takeMode_render
        intro ch t' e
        cases e
        decide
      rw [List.append_assoc, takeOperand, hm,
        (takeInt_eq_some _ _ _).mpr ⟨hs, ds, hd, .inr ⟨rfl, rfl⟩⟩, Option.map_some, ← hl]

/-- Whitespace is no digit, so it ends a number. -/
theorem stopsBefore_digit_of_blank {w rest : List Char} (hb : Blank w) (hne : w ≠ []) :
    StopsBefore Char.isDigit (w ++ rest) := by
  cases w with
  | nil => exact absurd rfl hne
  | cons ch t => exact stopsBefore_cons (by rcases hb ch (by simp) with rfl | rfl <;> decide)

/-- An operand token begins with no whitespace. -/
theorem stopsBefore_ws_of_token {t rest : List Char} {o : Operand} (h : OperandToken t o) :
    StopsBefore isWs (t ++ rest) := by
  have dig : ∀ d : Char, d.isDigit = true → isWs d = false := by
    intro d hd
    rw [Bool.eq_false_iff]
    intro hw
    rcases (isWs_iff d).mp hw with rfl | rfl <;> exact absurd hd (by decide)
  obtain ⟨ds, hd, ⟨rfl, _⟩ | ⟨rfl, _⟩⟩ := h
  · obtain ⟨d, u, rfl, hdig⟩ := digits_head hd
    cases o.mode <;> first | exact stopsBefore_cons (by decide) | exact stopsBefore_cons (dig d hdig)
  · cases o.mode <;> exact stopsBefore_cons (by decide)

/-- `takeOperandWs` reads an operand token and the whitespace after it. -/
theorem takeOperandWs_eq_some (cs : List Char) (o : Operand) (rest : List Char) :
    takeOperandWs cs = some (o, rest) ↔
      ∃ t w, cs = t ++ (w ++ rest) ∧ OperandToken t o ∧ Blank w ∧ w ≠ [] ∧ StopsBefore isWs rest := by
  constructor
  · intro h
    unfold takeOperandWs at h
    split at h
    · next o' r h1 =>
      obtain ⟨t, rfl, ht, -⟩ := (takeOperand_eq_some _ _ _).mp h1
      simp only [Option.map_eq_some_iff] at h
      obtain ⟨r', h2, h3⟩ := h
      cases h3
      obtain ⟨w, rfl, hb, hne, hs⟩ := (skipWs_eq_some _ _).mp h2
      exact ⟨t, w, rfl, ht, hb, hne, hs⟩
    · cases h
  · rintro ⟨t, w, rfl, ht, hb, hne, hs⟩
    have h1 := (takeOperand_eq_some (t ++ (w ++ rest)) o (w ++ rest)).mpr
      ⟨t, rfl, ht, stopsBefore_digit_of_blank hb hne⟩
    have h2 := (skipWs_eq_some (w ++ rest) rest).mpr ⟨w, rfl, hb, hne, hs⟩
    simp [takeOperandWs, h1, h2]

/-- No mnemonic holds whitespace. -/
theorem mnemonic_noWs (op : Opcode) : ∀ ch ∈ op.mnemonic, (!isWs ch) = true := by
  cases op <;> simp [Opcode.mnemonic, isWs]

/-- `takeOpcode` reads a mnemonic and the whitespace after it. -/
theorem takeOpcode_eq_some (cs : List Char) (op : Opcode) (rest : List Char) :
    takeOpcode cs = some (op, rest) ↔
      ∃ w, cs = op.mnemonic ++ (w ++ rest) ∧ Blank w ∧ w ≠ [] ∧ StopsBefore isWs rest := by
  constructor
  · intro h
    unfold takeOpcode at h
    split at h
    · next op' r h1 h2 =>
      cases h
      obtain ⟨w, e, hb, hne, hs⟩ := (skipWs_eq_some _ _).mp h2
      refine ⟨w, ?_, hb, hne, hs⟩
      rw [mnemonic_of_opcodeOfToken h1, ← e, List.takeWhile_append_dropWhile]
    · cases h
  · rintro ⟨w, rfl, hb, hne, hs⟩
    have hst : StopsBefore (fun ch => !isWs ch) (w ++ rest) := by
      cases w with
      | nil => exact absurd rfl hne
      | cons ch t => exact stopsBefore_cons (by simp [(blank_iff _).mp hb ch (by simp)])
    obtain ⟨e1, e2⟩ := takeWhile_of_stops (mnemonic_noWs op) hst
    have h2 := (skipWs_eq_some (w ++ rest) rest).mpr ⟨w, rfl, hb, hne, hs⟩
    simp [takeOpcode, e1, e2, opcodeOfToken_mnemonic, h2]

/-- `takeLineNumber` reads `lineno "." ws+`. -/
theorem takeLineNumber_eq_some (cs rest : List Char) :
    takeLineNumber cs = some rest ↔
      ∃ n w, cs = n ++ ('.' :: (w ++ rest)) ∧ Digits n ∧ Blank w ∧ w ≠ [] ∧ StopsBefore isWs rest := by
  constructor
  · intro h
    unfold takeLineNumber at h
    split at h
    · next k t h1 =>
      obtain ⟨ds, rfl, hd, -, -⟩ := (takeDigits_eq_some _ _ _).mp h1
      obtain ⟨w, rfl, hb, hne, hs⟩ := (skipWs_eq_some _ _).mp h
      exact ⟨ds, w, rfl, hd, hb, hne, hs⟩
    · cases h
  · rintro ⟨n, w, rfl, hd, hb, hne, hs⟩
    have h1 := (takeDigits_eq_some (n ++ ('.' :: (w ++ rest))) (digitsValue n) ('.' :: (w ++ rest))).mpr
      ⟨n, rfl, hd, rfl, stopsBefore_cons (by decide)⟩
    simp only [takeLineNumber, h1]
    exact (skipWs_eq_some _ _).mpr ⟨w, rfl, hb, hne, hs⟩

/-- `tailOk` accepts `ws* [ ";" rest ]`. -/
theorem tailOk_iff (cs : List Char) :
    tailOk cs = true ↔ ∃ w tail, cs = w ++ tail ∧ Blank w ∧ (tail = [] ∨ ∃ rest, tail = ';' :: rest) := by
  constructor
  · intro h
    refine ⟨cs.takeWhile isWs, cs.dropWhile isWs, by simp, (blank_iff _).mpr (takeWhile_all _ _), ?_⟩
    unfold tailOk at h
    split at h
    · next e => exact .inl e
    · next ch t e => exact .inr ⟨t, by rw [e]; simpa using h⟩
  · rintro ⟨w, tail, rfl, hb, ht⟩
    have hs : StopsBefore isWs tail := by
      rcases ht with rfl | ⟨rest, rfl⟩
      · exact stopsBefore_nil _
      · exact stopsBefore_cons (by decide)
    have e := (takeWhile_of_stops ((blank_iff _).mp hb) hs).2
    unfold tailOk
    rw [e]
    rcases ht with rfl | ⟨rest, rfl⟩ <;> rfl

/-- A line without an LF, then an LF: one line of the text (R72). -/
theorem splitLines_line (acc l rest : List Char) (h : '\n' ∉ l) :
    splitLines acc (l ++ '\n' :: rest) = (dropCr (l.reverse ++ acc)).reverse :: splitLines [] rest := by
  induction l generalizing acc with
  | nil => simp [splitLines]
  | cons c t ih =>
    have hc : c ≠ '\n' := by rintro rfl; simp at h
    simp only [List.cons_append, splitLines, if_neg hc]
    rw [ih _ (by simp at h; exact h.2)]; simp

/-- What stands after the last LF is a line too, a CR at its end kept. -/
theorem splitLines_last (acc l : List Char) (h : '\n' ∉ l) : splitLines acc l = [acc.reverse ++ l] := by
  induction l generalizing acc with
  | nil => simp [splitLines]
  | cons c t ih =>
    have hc : c ≠ '\n' := by rintro rfl; simp at h
    simp only [splitLines, if_neg hc]
    rw [ih _ (by simp at h; exact h.2)]; simp

/-- A CR before the LF is removed, and no other last character is. -/
theorem dropCr_reverse {l : List Char} (h : l.getLast? ≠ some '\r') : dropCr l.reverse = l.reverse := by
  rw [← List.head?_reverse] at h
  generalize l.reverse = r at *
  unfold dropCr
  split
  · simp at h
  · rfl

/-- A rejected text line is malformed (R89). -/
theorem decodeText_error {line : List Char} {e : Reject} (h : decodeText line = .error e) :
    ∃ x, e = .malformed x := by
  unfold decodeText at h
  repeat' split at h
  all_goals first | exact ⟨_, (Except.error.inj h).symm⟩ | cases h

end Sys2Proof.Machine
end

