-- ==== Sys2Proof/Tests/Slice0.lean ====
section
/-! SUPPORT. The model's own tests: the ill-formed terms the checks refuse, words and lines decoded, one cycle of each
instruction, the host's side, and a named witness for the hypotheses of every statement that has some. Expected results come
from spec/95_test_vectors.md (named by section) or from the rule named. -/

namespace Sys2Proof.Tests

open Sys2Proof Sys2Proof.Machine

/-! ### Helpers -/

/-- The state an outcome answers, if it is a next state. -/
def nextOf {σ φ ρ : Type} : Host.Outcome σ φ ρ → Option σ
  | .next s => some s
  | .fault _ => none
  | .refused _ => none

/-- Why an outcome refuses, if it does. -/
def refusalOf {σ φ ρ : Type} : Host.Outcome σ φ ρ → Option ρ
  | .next _ => none
  | .fault _ => none
  | .refused r => some r

/-- A machine at reset with the window of the vectors, some cells and a ROM. -/
def machine (mem : Memory) (rom : List RomLine) : State := State.powerOn Config.vectors mem rom

/-- What one instruction with three literals leaves in `wb`. -/
def wbAfter (op : Opcode) (a b c : Nat) : Option (Bool × Nat × Nat) :=
  (nextOf (exec (op.instr ⟨.imm, BitVec.ofNat 16 a⟩ ⟨.imm, BitVec.ofNat 16 b⟩ ⟨.imm, BitVec.ofNat 16 c⟩)
    (machine [] []))).map fun t => (t.wb.active, t.wb.value.toNat, t.wb.dest.toNat)

/-- A launch with the parameters of the vectors. -/
def launchOf (nAddr : Nat) (inBase : Int) (rom : RomSource) (input : InputStream) : LaunchInput :=
  { nAddr := nAddr, inBase := inBase, outBase := 1000, heapTop := 65535, negLow := 65536
    negBufLo := 65536, negBufHi := 65535, mem0 := [(5, 7)], rom := rom, input := input }

/-- Bytes of the input. -/
def bytes (ns : List Nat) : InputStream := .bytes (ns.map (BitVec.ofNat 8))

/-! ### Ill-formed terms are refused (2.2, 2.9) -/

theorem test_window_1000_ill_formed : legalWindow 1000 = false := by decide
theorem test_window_2_ill_formed : legalWindow 2 = false := by decide
theorem test_window_bounds_well_formed : legalWindow 4 = true ∧ legalWindow 65536 = true := by decide
theorem test_rom_word_2_58_ill_formed : legalRomWord (2 ^ 58) = false := by decide
theorem test_rom_word_negative_ill_formed : legalRomWord (-1) = false := by decide
theorem test_diw_opcode_13_ill_formed : legalDiw 0x340000000000000 = false := by decide
theorem test_diw_opcode_12_well_formed : legalDiw 0x300000000000000 = true := by decide

/-! ### Words (section 3 P1 to P3; the words of OR and SRL are cut out of R81 and R82 by hand) -/

theorem test_word_mnz : decodeTableWord 58 0x01000A000040000 = some (.mnz ⟨.a, 10⟩ ⟨.imm, 1⟩ ⟨.imm, 0⟩) := by decide
theorem test_word_mlz : decodeTableWord 58 0x05000D0001C0000 = some (.mlz ⟨.a, 13⟩ ⟨.imm, 7⟩ ⟨.imm, 0⟩) := by decide
theorem test_word_add : decodeTableWord 58 0x0800050001C0064 = some (.add ⟨.imm, 5⟩ ⟨.imm, 7⟩ ⟨.imm, 100⟩) := by decide
theorem test_word_sub :
    decodeTableWord 58 0x0DFFFB81003FFFF = some (.sub ⟨.a, 0xFFFB⟩ ⟨.b, 1024⟩ ⟨.c, 0xFFFF⟩) := by decide
theorem test_word_and :
    decodeTableWord 58 0x110064003FC03E8 = some (.and ⟨.a, 100⟩ ⟨.imm, 255⟩ ⟨.imm, 1000⟩) := by decide
/-- opc 0101, m1 10, l1 10, m2 01, l2 15, m3 11, l3 2. -/
theorem test_word_or : decodeTableWord 58
    0b0101_10_0000000000001010_01_0000000000001111_11_0000000000000010 =
      some (.or ⟨.b, 10⟩ ⟨.a, 15⟩ ⟨.c, 2⟩) := by decide
theorem test_word_xor : decodeTableWord 58 0x19000E4002C0010 = some (.xor ⟨.a, 14⟩ ⟨.a, 11⟩ ⟨.imm, 16⟩) := by decide
theorem test_word_ant : decodeTableWord 58 0x1D000A40030000E = some (.ant ⟨.a, 10⟩ ⟨.a, 12⟩ ⟨.imm, 14⟩) := by decide
theorem test_word_sl : decodeTableWord 58 0x2000030003C000D = some (.sl ⟨.imm, 3⟩ ⟨.imm, 15⟩ ⟨.imm, 13⟩) := by decide
/-- opc 1001, m1 00, l1 0xF0F0, m2 11, l2 4, m3 10, l3 20. -/
theorem test_word_srl : decodeTableWord 58
    0b1001_00_1111000011110000_11_0000000000000100_10_0000000000010100 =
      some (.srl ⟨.imm, 0xF0F0⟩ ⟨.c, 4⟩ ⟨.b, 20⟩) := by decide
theorem test_word_sra : decodeTableWord 58 0x29000A00004000B = some (.sra ⟨.a, 10⟩ ⟨.imm, 1⟩ ⟨.imm, 11⟩) := by decide
theorem test_word_sru : decodeTableWord 58 0x2C0000400400011 = some (.sru ⟨.imm, 0⟩ ⟨.a, 16⟩ ⟨.imm, 17⟩) := by decide
theorem test_word_sre : decodeTableWord 58 0x30000040028000C = some (.sre ⟨.imm, 0⟩ ⟨.a, 10⟩ ⟨.imm, 12⟩) := by decide
theorem test_word_illegal :
    (decodeTableWord 58 0x340000000000000, decodeTableWord 58 0x3FFFFFFFFFFFFFF, decodeTableWord 58 0x400000000000000) =
      (none, none, none) := by decide
/-- 30_encoding.md R81, the encoder on the words of S8 and 2.8. -/
theorem test_encode :
    encode (.add ⟨.a, 100⟩ ⟨.imm, 0⟩ ⟨.imm, 101⟩) = 0x090064000000065 ∧
    encode (.add ⟨.c, 50⟩ ⟨.imm, 0⟩ ⟨.a, 60⟩) = 0x0B003200001003C := by decide

/-! ### Text lines (2.1) -/

theorem test_line_plain : decodeText "0. ADD 1 2 3".toList = .ok (.add ⟨.imm, 1⟩ ⟨.imm, 2⟩ ⟨.imm, 3⟩) := by decide
theorem test_line_spaced : decodeText "  7.\tSUB A-1 B0 C65535   ; hi".toList =
    .ok (.sub ⟨.a, 0xFFFF⟩ ⟨.b, 0⟩ ⟨.c, 0xFFFF⟩) := by decide
theorem test_line_comment_joined :
    decodeText "12. ADD 1 2 3;c".toList = .ok (.add ⟨.imm, 1⟩ ⟨.imm, 2⟩ ⟨.imm, 3⟩) := by decide
theorem test_line_big_literals : decodeText "0. ADD -0 0070000 -65537".toList =
    .ok (.add ⟨.imm, 0⟩ ⟨.imm, 4464⟩ ⟨.imm, 0xFFFF⟩) := by decide
theorem test_line_malformed_number :
    ["0.ADD 1 2 3", "0 . ADD 1 2 3", "ADD 1 2 3", "; only comment"].map (fun l => decodeText l.toList) =
      List.replicate 4 (.error (.malformed .lineNumber)) := by decide
theorem test_line_malformed_opcode :
    ["0. add 1 2 3", "0. NOP 0 0 0", "2. junk"].map (fun l => decodeText l.toList) =
      List.replicate 3 (.error (.malformed .opcode)) := by decide
theorem test_line_malformed_operand :
    ["0. ADD 1 2", "0. ADD +1 2 3", "0. ADD 0x10 2 3", "0. ADD D1 2 3", "0. ADD a1 2 3", "0. ADD A 2 3",
      "0. ADD A -1 2 3", "0. ADD 1x 2 3"].map (fun l => decodeText l.toList) =
      List.replicate 8 (.error (.malformed .operand)) := by decide
theorem test_line_malformed_tail :
    ["0. ADD 1 2 3 4", "0. ADD 1 2 3 junk", "0. ADD 1 2 3é"].map (fun l => decodeText l.toList) =
      List.replicate 3 (.error (.malformed .tail)) := by decide
theorem test_rom_text_lines : romTextLines "0. MNZ 0 0 0\r\n\r\n   \n5. ADD 1 1 9\n".toList =
    ["0. MNZ 0 0 0".toList, "5. ADD 1 1 9".toList] := by decide

/-! ### One cycle of each instruction (2.3 to 2.6) -/

theorem test_mnz_no_write : wbAfter .mnz 0 9 23 = some (false, 9, 23) := by decide
theorem test_mnz_writes_zero : wbAfter .mnz 0x8000 0 5 = some (true, 0, 5) := by decide
theorem test_mlz_bit_15 : wbAfter .mlz 0x8000 7 20 = some (true, 7, 20) := by decide
theorem test_mlz_bit_7_is_no_sign : wbAfter .mlz 0x00FF 5 24 = some (false, 5, 24) := by decide
theorem test_add_wraps : wbAfter .add 0xFFFF 0xFFFF 10 = some (true, 0xFFFE, 10) := by decide
theorem test_sub_wraps : wbAfter .sub 3 5 10 = some (true, 0xFFFE, 10) := by decide
theorem test_sub_minus_one : wbAfter .sub 0x04D2 0xFFFF 10 = some (true, 0x04D3, 10) := by decide
theorem test_and : wbAfter .and 0xF0F0 0x0FF0 20 = some (true, 0x00F0, 20) := by decide
theorem test_or : wbAfter .or 0xF0F0 0x0FF0 20 = some (true, 0xFFF0, 20) := by decide
theorem test_xor : wbAfter .xor 0x1234 0xFFFF 20 = some (true, 0xEDCB, 20) := by decide
theorem test_ant_order : wbAfter .ant 0x0FF0 0xF0F0 20 = some (true, 0x0F00, 20) := by decide
theorem test_ant_complement : wbAfter .ant 0xFFFF 0x1234 20 = some (true, 0xEDCB, 20) := by decide
theorem test_sl_truncates : wbAfter .sl 3 15 20 = some (true, 0x8000, 20) := by decide
theorem test_sl_by_16 : wbAfter .sl 1 16 20 = some (true, 0, 20) := by decide
theorem test_srl_by_15 : wbAfter .srl 0x8000 15 20 = some (true, 1, 20) := by decide
theorem test_srl_by_65535 : wbAfter .srl 0xFFFF 65535 20 = some (true, 0, 20) := by decide
theorem test_sra_keeps_bit_7 : wbAfter .sra 0xFFFF 1 20 = some (true, 0x00BF, 20) := by decide
theorem test_sra_by_zero : wbAfter .sra 0x1234 0 20 = some (true, 0x0034, 20) := by decide
theorem test_sru_ignores_a : wbAfter .sru 0xFFFF 0 20 = some (true, 0, 20) := by decide
theorem test_sru_halves_b : wbAfter .sru 0 0x8000 20 = some (true, 0x4000, 20) := by decide
theorem test_sre_high_byte : wbAfter .sre 0 0x1234 20 = some (true, 0x0012, 20) := by decide

/-! ### Operands and the window (2.8) -/

/-- A machine with the cells of the resolver vectors. -/
def resolverMachine : State := machine [(50, 51), (51, 52), (52, 0x1234), (100, 200), (200, 7), (1023, 9)] []

theorem test_resolve_b100 : (resolverMachine.resolve 0 ⟨.b, 100⟩).1 = 7 := by decide
theorem test_resolve_c50 : (resolverMachine.resolve 0 ⟨.c, 50⟩).1 = 0x1234 := by decide
theorem test_resolve_negative : (resolverMachine.resolve 0 ⟨.a, 65535⟩).1 = 9 := by decide
/-- S6: one access each on cells 100 and 200. -/
theorem test_resolve_counts : let t := (resolverMachine.resolve 0 ⟨.b, 100⟩).2
    t.count 100 = 1 ∧ t.count 200 = 1 ∧ t.count 0 = 0 := by decide
/-- 10_state.md R24; its fourth example is 1005 by R13 (log entry 22). -/
theorem test_window_aliases :
    [5, 1029, 64517, -64507, -64531].map (cellIndex Config.vectors) = [5, 5, 5, 5, 1005] := by decide
/-- 2.8: line 0 of the indirect-destination program; the destination is M[60] = 70. -/
theorem test_indirect_destination :
    (nextOf (exec (.add ⟨.c, 50⟩ ⟨.imm, 0⟩ ⟨.a, 60⟩)
      (machine [(50, 51), (51, 52), (52, 0x1234), (60, 70)] []))).map (fun t => (t.wb, t.cell 60)) =
      some (⟨true, 0x1234, 70⟩, 70) := by decide

/-! ### The cycle (2.7, S4, S8) -/

/-- S4: cycle 0 leaves the result pending and cell 10 at its old value; four accesses on cell 0. -/
theorem test_latency_cycle_0 :
    (nextOf (step (machine [] [.word 0x09000000014000A, .word 0x09000000000000B]))).map
      (fun t => (t.wb, t.cell 10, t.cell 0, t.count 0, t.steps)) = some (⟨true, 5, 10⟩, 0, 1, 4, 1) := by decide
/-- S4: cycle 1 commits before it resolves. -/
theorem test_latency_cycle_1 :
    (nextOf (step { machine [(0, 1)] [.word 0x09000000014000A, .word 0x09000000000000B] with
      wb := ⟨true, 5, 10⟩ })).map (fun t => (t.wb, t.cell 10, t.cell 0)) = some (⟨true, 1, 11⟩, 5, 2) := by decide
/-- 2.7, empty ROM. -/
theorem test_empty_rom_halts :
    (nextOf (step State.reset)).map (fun t => (t.run, t.cell 0, t.steps, t.count 0)) =
      some (.halted, 0, 0, 1) := by decide
/-- 2.7, the decode fault of PC 1: the pending write is not committed. -/
theorem test_decode_fault :
    (nextOf (step { machine [(0, 1)] [.text "0. ADD 0 9 10".toList, .text "1. ADD 1 2".toList] with
      wb := ⟨true, 9, 10⟩ })).map (fun t => (t.run, t.cause.code, t.cell 0, t.cell 10, t.wb)) =
      some (.faulted, 1, 1, 0, ⟨true, 9, 10⟩) := by decide
/-- 2.7, the illegal word of PC 1. -/
theorem test_illegal_word_fault :
    (nextOf (step { machine [(0, 1)] [.word 0x08000000024000A, .word 0x340000000000000] with
      wb := ⟨true, 9, 10⟩ })).map (fun t => (t.run, t.cause.code, t.cell 10, t.faultRecord)) =
      some (.faulted, 2, 0, some (.illegalEncoding 1 0x340000000000000)) := by decide
/-- 2.7, the lost slot write: the delay slot reads the committed jump value and the PC goes on from it. -/
theorem test_delay_slot_reads_target :
    (nextOf (step { machine [(0, 1)] [.word 0, .text "1. ADD A0 0 5".toList, .word 0] with
      wb := ⟨true, 65534, 0⟩ })).map (fun t => (t.wb, t.cell 0)) = some (⟨true, 65534, 5⟩, 65535) := by decide
/-- 2.7, the jump that wraps to 0. -/
theorem test_pc_wraps :
    (nextOf (step { machine [(0, 2)] [.word 0, .word 0, .word 0] with wb := ⟨true, 65535, 0⟩ })).map
      (fun t => t.cell 0) = some 0 := by decide
/-- 20_memory.md R49 and R50: one warning, with the PC and the step count, and the read goes ahead. -/
theorem test_warning :
    let c : Config := { Config.vectors with heapTop := 60000, negLow := 60010 }
    (nextOf (step { State.powerOn c [] [.text "0. ADD A60001 A60010 9".toList] with steps := 3 })).map
      (fun t => (t.warnings, t.wb)) = some ([⟨60001, 0, 3⟩], ⟨true, 0, 9⟩) := by decide
/-- The host's placement runs the placed word first. -/
theorem test_placed_word :
    (nextOf (step (State.reset.withFetchWord 58 0x0800050001C0064))).map (fun t => (t.wb, t.cell 0)) =
      some (⟨true, 12, 100⟩, 1) := by decide

/-! ### Launch, codec, readout and summary (2.9) -/

theorem test_pack : packWords ([0x00, 0xFF, 0x01].map (BitVec.ofNat 8)) = [0xFF00, 0x0001] := by decide
theorem test_launch_window_refused :
    refusalOf (launch (launchOf 1000 100 (.words []) (bytes []))) = some (.windowSize 1000) := by decide
theorem test_launch_rom_word_refused :
    refusalOf (launch (launchOf 1024 100 (.words [0, 2 ^ 58]) (bytes []))) = some (.romWord (2 ^ 58)) := by decide
theorem test_launch_word_on_pc_refused :
    refusalOf (launch (launchOf 1024 1023 (.words []) (bytes [1, 2, 3]))) = some .inputOnPc := by decide
theorem test_launch_word_at_top_accepted :
    (nextOf (launch (launchOf 1024 1023 (.words []) (bytes [1, 2])))).map
      (fun s => (s.cell 1023, s.count 1023, s.cell 5)) = some (0x0201, 1, 7) := by decide
theorem test_launch_unreadable :
    (nextOf (launch (launchOf 1024 100 (.words []) (.unreadable [0x4241])))).map
      (fun s => (s.run, s.cause.code, s.steps)) = some (.faulted, 3, 0) := by decide
/-- 70_reset_and_hazards.md R232: the input error of stage 3 comes before the check of cell 0 in stage 4. -/
theorem test_launch_unreadable_word_on_pc :
    (nextOf (launch (launchOf 1024 1023 (.words []) (.unreadable [7, 8])))).map
      (fun s => (s.run, s.cause.code, s.cell 1023, s.cell 0)) = some (.faulted, 3, 7, 8) := by decide
/-- As above, for a window no state can hold. -/
theorem test_launch_unreadable_bad_window : (match launch (launchOf 1000 100 (.words []) (.unreadable [])) with
    | .fault r => some r
    | _ => none) = some (.failedRun .inputError) := by decide
theorem test_readout_hi :
    (nextOf (hostReadout { machine [(2, 998), (999, 0x69), (1000, 0x48)] [] with run := .halted })).map
      (fun r => (r.1, r.2.count 1000, r.2.count 999, r.2.count 2)) = some ([0x48, 0x69], 1, 1, 0) := by decide
theorem test_readout_empty :
    (nextOf (hostReadout { machine [(2, 1005)] [] with run := .halted })).map (fun r => r.1) = some [] := by decide
/-- R243: an output region that reaches cell 2 counts its reads there, and only those. -/
theorem test_readout_reaches_cell_2 :
    (nextOf (hostReadout { State.powerOn { Config.vectors with outBase := 3 } [(2, 1), (3, 9)] [] with run := .halted })).map
      (fun r => (r.1, r.2.count 3, r.2.count 2)) = some ([9, 1], 1, 1) := by decide
/-- 60_exceptions.md R220. -/
theorem test_summary :
    ({ State.powerOn { Config.vectors with window := 2 } [] [] with
      cnt := [(0, 4), (7, 1), (9, 2)], steps := 1 } : State).summary = ⟨1, 3, some 9⟩ := by decide

/-! ### Witnesses: for every statement with hypotheses, data that meets them, at boundary values of each clause -/

theorem test_witness_power_on :
    let s := machine (powerOnMemory 1024 [(0, 3), (1, 7), (1, 8), (1023, 9), (1024, 4)]) []
    0 < 1 ∧ 1023 < s.cfg.nAddr ∧ s.cell 0 = 0 ∧ s.cell 1 = 8 ∧ s.cell 1023 = 9 := by decide

theorem test_witness_launch_reasons :
    (¬ ∃ k, 2 ≤ k ∧ k ≤ 16 ∧ 65537 = 2 ^ k) ∧
    (∃ w ∈ [(0 : Int), 2 ^ 58], ¬ (0 ≤ w ∧ w < 2 ^ 58)) ∧
    (∃ k : Nat, k < (packWords [1, 2, 3]).length ∧ (1023 + (k : Int)) % (1024 : Int) = 0) := by
  refine ⟨?_, by decide, 1, by decide, by decide⟩
  rintro ⟨k, -, h2, h3⟩
  interval_cases k <;> simp at h3

/-- None of the three reasons holds of this launch, at the greatest window. -/
theorem test_witness_launch_no_reason :
    65536 = 2 ^ 16 ∧ (∀ w ∈ [(0 : Int), 2 ^ 58 - 1], 0 ≤ w ∧ w < 2 ^ 58) ∧
    ∀ k : Nat, k < 1 → (65535 + (k : Int)) % (65536 : Int) ≠ 0 := by
  refine ⟨by decide, by decide, fun k hk => ?_⟩
  obtain rfl : k = 0 := by omega
  decide

theorem test_witness_launch_accepted :
    let inp := launchOf 1024 100 (.words [0]) (bytes [0x41, 0x42, 0x43])
    inp.input = bytes [0x41, 0x42, 0x43] ∧ inp.rom = .words [0] ∧ (∃ s, launch inp = .next s) ∧
    (packWords ([0x41, 0x42, 0x43].map (BitVec.ofNat 8)))[1]? = some 0x0043 ∧
    ∀ k : Nat, k < 2 → cellIndex Config.vectors (100 + k) ≠ 99 := by
  refine ⟨rfl, rfl, ⟨_, rfl⟩, by decide, by decide⟩

/-- The text form of a ROM in an accepted launch. -/
theorem test_witness_launch_text :
    ∃ s, launch (launchOf 1024 100 (.text ['0', '.', '\n']) (bytes [])) = .next s := ⟨_, rfl⟩

theorem test_witness_packing : 1 < (3 + 1) / 2 ∧ 0 < (1 + 1) / 2 := by decide

/-- Both cases: a window and lines that a state can hold, at their bounds, and a window that none can. The two words go to two
cells, the second over cell 0. -/
theorem test_witness_unreadable :
    (∃ ws, (launchOf 65536 65535 (.words [0, 2 ^ 58 - 1]) (.unreadable [7, 8])).input = .unreadable ws) ∧
    (∃ k, 2 ≤ k ∧ k ≤ 16 ∧ 65536 = 2 ^ k) ∧ (∀ v ∈ [(0 : Int), 2 ^ 58 - 1], 0 ≤ v ∧ v < 2 ^ 58) ∧
    ([7, 8] : List Word)[1]? = some 8 ∧ ¬ ∃ k, 2 ≤ k ∧ k ≤ 16 ∧ 65537 = 2 ^ k :=
  ⟨⟨_, rfl⟩, ⟨16, by decide⟩, by decide, rfl, test_witness_launch_reasons.1⟩

theorem test_witness_negative_addresses :
    1 ≤ 1 ∧ 1 ≤ Config.vectors.nAddr ∧ 1024 ≤ Config.vectors.nAddr ∧
    cellIndex Config.vectors (-1) = 1023 ∧ cellIndex Config.vectors (-1024) = 0 := by decide

theorem test_witness_canonical_cells :
    Cells.wf ([(5, 77), (9, 1)] : Memory) ∧ ∀ i, Cells.get ([(5, 77), (9, 1)] : Memory) i = Cells.get [(5, 77), (9, 1)] i :=
  ⟨by decide, fun _ => rfl⟩

theorem test_witness_resolve_modes :
    (⟨.imm, 100⟩ : Operand).mode = .imm ∧ (⟨.a, 100⟩ : Operand).mode = .a ∧ (⟨.b, 100⟩ : Operand).mode = .b ∧
    (⟨.c, 100⟩ : Operand).mode = .c := by decide

/-- The bands where they meet the addresses around them. -/
theorem test_witness_bounds_check :
    let c : Config := { Config.vectors with heapTop := 60000, negLow := 60002, negBufLo := 65000, negBufHi := 65535 }
    ¬ InFlaggedBand c 60000 ∧ InFlaggedBand c 60001 ∧ ¬ InFlaggedBand c 60002 ∧
    ¬ InFlaggedBand c 64999 ∧ InFlaggedBand c 65000 ∧ InFlaggedBand c 65535 := by
  simp only [InFlaggedBand]; decide

theorem test_witness_large_shifts : 16 ≤ (16 : Word).toNat ∧ 7 ≤ (7 : Word).toNat := by decide

/-- ADD writes; a pending result for cell 10 leaves cell 11 alone. -/
theorem test_witness_frame :
    let s := { machine [] [] with wb := ⟨true, 5, 10⟩ }
    Opcode.add ≠ .mnz ∧ Opcode.add ≠ .mlz ∧ (11 : Nat) ≠ 0 ∧
    (s.wb.active = true → (11 : Nat) ≠ s.wb.dest.toNat % s.cfg.nAddr) := by decide

theorem test_witness_result_visible :
    (nextOf (exec (.add ⟨.imm, 5⟩ ⟨.imm, 7⟩ ⟨.imm, 1124⟩) (machine [] []))).map
      (fun t => (t.wb.active, t.wb.dest.toNat % t.cfg.nAddr)) = some (true, 100) ∧
    (1124 : Word).toNat % 1024 = 100 ∧
    (Instr.add ⟨.imm, 0⟩ ⟨.imm, 0⟩ ⟨.a, 1124⟩).operands.2.2 = ⟨.a, 1124⟩ := by decide

/-- The result of line 0 is the destination that line 1 reads through cell 100 (R63). -/
theorem test_next_operand_sees_result :
    (nextOf (exec (.add ⟨.imm, 0⟩ ⟨.a, 100⟩ ⟨.a, 1124⟩) { machine [(0, 1)] [] with wb := ⟨true, 12, 100⟩ })).map
      (fun t => (t.wb, t.cell 100)) = some (⟨true, 12, 12⟩, 12) := by decide

theorem test_witness_executes :
    (machine [] [.word 0x0800050001C0064]).Executes (.add ⟨.imm, 5⟩ ⟨.imm, 7⟩ ⟨.imm, 100⟩) :=
  ⟨rfl, _, rfl, by decide⟩

/-- The PC at the end, one before the end, and a ROM that no PC can leave. -/
theorem test_witness_fetch :
    (let s := machine [(0, 1)] [.word 0]; s.run = .running ∧ s.rom.length ≤ s.pc.toNat) ∧
    (let s := machine [] [.word 0]; s.run = .running ∧ s.pc.toNat < s.rom.length) ∧
    (machine [] (List.replicate 65536 (.word 0))).run = .running ∧
    65536 ≤ (machine [] (List.replicate 65536 (.word 0))).rom.length :=
  ⟨by decide, by decide, rfl, Nat.le_of_eq List.length_replicate.symm⟩

theorem test_witness_malformed_line :
    let s := machine [] [.text "0. ADD 1 2".toList]
    s.run = .running ∧ s.rom[s.pc.toNat]? = some (.text "0. ADD 1 2".toList) ∧
    decodeText "0. ADD 1 2".toList = .error (.malformed .operand) := by decide

theorem test_witness_illegal_word :
    let s := machine [] [.word 0x340000000000000]
    s.run = .running ∧ s.rom[s.pc.toNat]? = some (.word 0x340000000000000) ∧
    13 ≤ (0x340000000000000 : Diw).toNat / 2 ^ 54 := by decide

/-- A step that faults, for the second clause on faults. -/
theorem test_witness_step_faults :
    let s := machine [] [.word 0x340000000000000]
    s.run = .running ∧ (nextOf (step s)).map (fun t => t.run) = some .faulted := by decide

theorem test_witness_ended :
    ({ machine [] [] with run := .halted } : State).Ended ∧
    ({ machine [] [] with run := .faulted, cause := .decodeError } : State).Ended := by
  simp only [State.Ended]; decide

/-- Nothing executes at the end of the ROM. -/
theorem test_witness_executes_nothing : ¬ ∃ i, (machine [] []).Executes i := by
  rintro ⟨i, -, line, h, -⟩
  exact absurd h (by simp [machine, State.powerOn])

theorem test_witness_pc_write :
    let s := { machine [(0, 1)] [.word 0, .word 0, .word 0] with wb := ⟨true, 1, 1024⟩ }
    s.Executes (.mnz ⟨.imm, 0⟩ ⟨.imm, 0⟩ ⟨.imm, 0⟩) ∧ s.wb.active = true ∧ s.wb.dest.toNat % s.cfg.nAddr = 0 ∧
    s.rom[(s.wb.value + 1).toNat]? = some (.word 0) ∧ decodeLine (.word 0) = .ok (.mnz ⟨.imm, 0⟩ ⟨.imm, 0⟩ ⟨.imm, 0⟩) :=
  ⟨⟨rfl, _, rfl, by decide⟩, by decide, by decide, by decide, by decide⟩

/-- The other end of a PC write: its target plus one is at the end of the ROM. -/
theorem test_witness_pc_write_stops :
    let s := { machine [(0, 1)] [.word 0, .word 0, .word 0] with wb := ⟨true, 2, 0⟩ }
    s.rom.length ≤ (s.wb.value + 1).toNat := by decide

theorem test_witness_same_architecture :
    SameArchitecture (machine [] [.word 0]) { machine [] [.word 0] with cnt := [(0, 5)], steps := 9 } :=
  ⟨rfl, fun _ => rfl, rfl, rfl, rfl, rfl⟩

theorem test_witness_invariant : (machine [(5, 77)] [.word 0]).Inv := by
  simp only [State.Inv, State.CellsOk, State.CauseOk]; decide

theorem test_witness_word_decodes :
    decodeWord 0x3000004019003E7 = .ok (.sre ⟨.imm, 0⟩ ⟨.a, 100⟩ ⟨.imm, 999⟩) := by decide

theorem test_witness_opcode_field :
    (0x300000000000000 : Diw).toNat / 2 ^ 54 < 13 ∧ 13 ≤ (0x340000000000000 : Diw).toNat / 2 ^ 54 := by decide

theorem test_witness_digits :
    ['1', '2'] ≠ [] ∧ (∀ d ∈ ['1', '2'], d.isDigit = true) ∧
    (∀ d r, [' ', '2'] = d :: r → d.isDigit = false) := by
  refine ⟨by decide, by simp, ?_⟩
  rintro d r h
  cases h
  decide

theorem test_witness_no_line : ¬ ∃ op o1 o2 o3, LineOfGrammar [] op o1 o2 o3 := by
  rintro ⟨op, o1, o2, o3, w0, n, w1, w2, t1, w3, t2, w4, t3, w5, tail, h, -⟩
  simp at h

/-- A line of the grammar, cut at its tokens. -/
theorem test_witness_line :
    LineOfGrammar "0. OR A1 2 3".toList .or ⟨.a, 1⟩ ⟨.imm, 2⟩ ⟨.imm, 3⟩ :=
  ⟨[], ['0'], [' '], [' '], ['A', '1'], [' '], ['2'], [' '], ['3'], [], [], by decide, by simp [Blank], by
    simp [Digits], by simp [Blank], by simp, by simp [Blank], by simp,
    ⟨['1'], by simp [Digits], .inl (by decide)⟩, by simp [Blank], by simp,
    ⟨['2'], by simp [Digits], .inl (by decide)⟩, by simp [Blank], by simp,
    ⟨['3'], by simp [Digits], .inl (by decide)⟩, by simp [Blank], .inl rfl⟩

theorem test_witness_rom_text :
    (∀ x ∈ [(['X', '\r'], true), ([' '], false)], '\n' ∉ x.1 ∧ (x.2 = false → x.1.getLast? ≠ some '\r')) ∧
    '\n' ∉ ['Y', '\r'] ∧ ∀ ch ∈ [' ', '\t'], isWs ch = true := by simp [isWs]

/-- R72: blank lines between and after the lines, one ended by CR LF, and a last line with no LF. -/
theorem test_rom_text_blank_lines :
    romTextLines "\r\na\n \t\r\nb\r\n\nc".toList = [['a'], ['b'], ['c']] := by decide

theorem test_witness_run_states :
    ({ machine [] [] with run := .halted } : State).run = .halted ∧
    ({ machine [] [] with run := .faulted } : State).run = .faulted ∧ (machine [] []).run = .running := by decide

theorem test_witness_placed_word :
    decodeTableWord 58 0x2C0000400400011 = some (.sru ⟨.imm, 0⟩ ⟨.a, 16⟩ ⟨.imm, 17⟩) := by decide

end Sys2Proof.Tests
end

section
/-! How an integer address selects a cell (R13, R43): the Euclidean residue modulo `N_ADDR`, which sees the address only
through its residue modulo 65536. -/

namespace Sys2Proof.Machine

theorem cellIndex_cast (c : Config) (addr : Int) : (cellIndex c addr : Int) = addr % c.nAddr :=
  Int.toNat_of_nonneg (Int.emod_nonneg addr (by exact_mod_cast (nAddr_pos c).ne'))

/-- Every installed window divides the 16-bit address space (R12), so it cannot tell such addresses apart. -/
theorem cellIndex_congr (c : Config) {addr addr' : Int} (h : addr ≡ addr' [ZMOD 65536]) :
    cellIndex c addr = cellIndex c addr' := by
  have hdvd : (c.nAddr : Int) ∣ 65536 := by exact_mod_cast nAddr_dvd c
  have hmod : addr % c.nAddr = addr' % c.nAddr := h.of_dvd hdvd
  unfold cellIndex
  rw [hmod]

theorem cellIndex_add_mul (c : Config) (addr m : Int) : cellIndex c (addr + 65536 * m) = cellIndex c addr :=
  cellIndex_congr c (Int.add_mul_emod_self_left addr 65536 m)

/-- Settles O9: the bound is `cellIndex_lt`, the multiple of `N_ADDR` is the quotient of the Euclidean division, and
addresses 65536 apart agree because `N_ADDR` divides 65536. -/
theorem addressesReduceIntoTheWindow : Obligations.AddressesReduceIntoTheWindow := by
  unfold Obligations.AddressesReduceIntoTheWindow
  intro c addr
  refine ⟨cellIndex_lt c addr, ⟨addr / c.nAddr, ?_⟩, cellIndex_add_mul c addr⟩
  rw [cellIndex_cast]
  exact (Int.ediv_mul_add_emod addr c.nAddr).symm

end Sys2Proof.Machine
end

section
/-! The canonical form of cells (R22): which entries such a list holds is fixed by what it reads as at each index. -/

namespace Sys2Proof.Machine

/-- The entries of a canonical list are the values it reads, less the default. -/
theorem mem_iff_get {w : Nat} {m : Cells w} (h : Cells.wf m) (i : Nat) (v : BitVec w) :
    (i, v) ∈ m ↔ Cells.get m i = v ∧ v ≠ Cells.unlisted w := by
  induction m with
  | nil =>
    simp only [List.not_mem_nil, Cells.get, false_iff]
    rintro ⟨rfl, hne⟩
    exact hne rfl
  | cons x rest ih =>
    obtain ⟨k, u⟩ := x
    obtain ⟨hsorted, hlisted⟩ := h
    obtain ⟨hk, hrest⟩ := List.pairwise_cons.mp hsorted
    have ih := ih ⟨hrest, fun y hy => hlisted y (by simp [hy])⟩
    by_cases hki : k = i
    · subst hki
      have hu : u ≠ Cells.unlisted w := hlisted (k, u) (by simp)
      have hnot : (k, v) ∉ rest := fun hv => lt_irrefl k (hk (k, v) hv)
      simp only [List.mem_cons, Prod.mk.injEq, true_and, hnot, or_false, Cells.get, if_true]
      exact ⟨fun e => ⟨e.symm, e ▸ hu⟩, fun e => e.1.symm⟩
    · simp [Cells.get, hki, Ne.symm hki, ih]

theorem nodup_of_wf {w : Nat} {m : Cells w} (h : Cells.wf m) : m.Nodup :=
  h.1.imp fun hlt => ne_of_apply_ne Prod.fst hlt.ne

/-- Settles O11: canonical lists that read alike have the same entries by `mem_iff_get`, and strictly rising lists with
the same entries are one list. -/
theorem canonicalCellsAreDeterminedByTheirValues : Obligations.CanonicalCellsAreDeterminedByTheirValues := by
  unfold Obligations.CanonicalCellsAreDeterminedByTheirValues
  intro w m m' h h' hget
  have hmem : ∀ x, x ∈ m ↔ x ∈ m' := fun ⟨i, v⟩ => by rw [mem_iff_get h, mem_iff_get h', hget]
  have hperm : m.Perm m' := (List.perm_ext_iff_of_nodup (nodup_of_wf h) (nodup_of_wf h')).mpr hmem
  exact hperm.eq_of_pairwise (fun _ _ _ _ hab hba => absurd hab hba.asymm) h.1 h'.1

end Sys2Proof.Machine
end

section
/-! One step as an equation for each way it can go (R111 to R113, R209), and what each way leaves unchanged. -/

namespace Sys2Proof.Machine

/-! ### The ways of a step -/

theorem step_of_ended {s : State} (h : s.Ended) : step s = .next s := by
  unfold step
  split
  · rfl
  · rfl
  · next hr => exact absurd hr h

theorem step_of_end_of_rom {s : State} (hr : s.run = .running) (hend : s.rom.length ≤ s.pc.toNat) :
    step s = .next (s.bump 0).halt := by
  have hcell : s.rom.length ≤ (s.cell 0).toNat := hend
  simp [step, State.fetch, hr, hcell]

section
variable {s : State} {line : RomLine} (hr : s.run = .running) (hl : s.rom[s.pc.toNat]? = some line)
include hr hl

theorem step_of_reject {e : Reject} (hd : decodeLine line = .error e) :
    step s = .next ((s.bump 0).takeFault (rejectCause e)) := by
  have hcell : s.rom[(s.cell 0).toNat]? = some line := hl
  have hlt : (s.cell 0).toNat < s.rom.length := (List.getElem?_eq_some_iff.mp hcell).1
  simp [step, State.fetch, hr, hcell, hlt.not_ge, hd]

theorem step_of_decoded {i : Instr} (hd : decodeLine line = .ok i) : step s = exec i (s.bump 0) := by
  have hcell : s.rom[(s.cell 0).toNat]? = some line := hl
  have hlt : (s.cell 0).toNat < s.rom.length := (List.getElem?_eq_some_iff.mp hcell).1
  simp [step, State.fetch, hr, hcell, hlt.not_ge, hd]

end

theorem step_of_executes {s : State} {i : Instr} (h : s.Executes i) : step s = exec i (s.bump 0) := by
  obtain ⟨hr, line, hl, hd⟩ := h
  exact step_of_decoded hr hl hd

/-- A step runs an instruction, or it changes the run state, the cause and the counters alone. -/
theorem step_executes_or_stops (s : State) :
    (∃ i, s.Executes i ∧ step s = exec i (s.bump 0)) ∨
    ((¬ ∃ i, s.Executes i) ∧
      ∃ t, step s = .next t ∧ t = { s with run := t.run, cause := t.cause, cnt := t.cnt }) := by
  rcases step_cases s with ⟨hne, hs⟩ | ⟨hr, hend, hs⟩ | ⟨hr, line, e, hl, hd, hs⟩ | ⟨hr, line, i, hl, hd, hs⟩
  · exact .inr ⟨fun ⟨_, hr, _⟩ => hne hr, s, hs, rfl⟩
  · refine .inr ⟨?_, _, hs, rfl⟩
    rintro ⟨i, -, line, hl, -⟩
    exact absurd (List.getElem?_eq_some_iff.mp hl).1 (Nat.not_lt.mpr hend)
  · refine .inr ⟨?_, _, hs, rfl⟩
    rintro ⟨i, -, line', hl', hd'⟩
    obtain rfl : line = line' := Option.some.inj (hl.symm.trans hl')
    exact absurd (hd.symm.trans hd') (by simp)
  · exact .inl ⟨i, ⟨hr, line, hl, hd⟩, hs⟩

/-! ### The cycle of an instruction -/

/-- What the ALU arm `alu` leaves pending for instruction `i` in the cycle that begins in `s` (R116, R118). -/
def State.pendingOf (s : State) (alu : Word → Word → Word → AluOut) (i : Instr) : WriteBack :=
  let r := alu (s.operandValue i.operands.1) (s.operandValue i.operands.2.1) (s.operandValue i.operands.2.2)
  { active := r.write, value := BitVec.ofNat 16 r.value, dest := r.dest }

/-- Every instruction has one ALU arm, with which all its cycles end alike; the arm's destination is `c` (R117). -/
theorem exec_spec (i : Instr) : ∃ alu : Word → Word → Word → AluOut, (∀ a b c, (alu a b c).dest = c) ∧
    ∀ s, ∃ t, exec i s = .next t ∧ CycleEnds s t (s.pendingOf alu i) ∧ DiagEnds s t (s.instrTrail i) := by
  obtain ⟨alu, hdest, he⟩ := exec_is_cycle i
  refine ⟨alu, hdest, fun s => ?_⟩
  obtain ⟨t, ht, hcycle, hdiag⟩ := executeCycle_spec alu i.operands.1 i.operands.2.1 i.operands.2.2 s
  exact ⟨t, (he s).trans ht, hcycle, hdiag⟩

@[simp] theorem bump_afterCommit (i : Nat) (s : State) : (s.bump i).afterCommit = s.afterCommit := rfl

/-! ### The obligations about one step -/

/-- Settles O38: `step` looks at the run state first. -/
theorem endedMachineStaysAsItIs : Obligations.EndedMachineStaysAsItIs := by
  unfold Obligations.EndedMachineStaysAsItIs
  exact fun _ => step_of_ended

/-- Settles O41: an executed instruction keeps both by its cycle's frame, and any other step touches neither. -/
theorem noStepChangesRomOrConfiguration : Obligations.NoStepChangesRomOrConfiguration := by
  unfold Obligations.NoStepChangesRomOrConfiguration
  intro s
  rcases step_executes_or_stops s with ⟨i, -, hs⟩ | ⟨-, t, hs, ht⟩
  · obtain ⟨alu, -, hexec⟩ := exec_spec i
    obtain ⟨t, he, ⟨-, -, -, hrom, hcfg, -⟩, -⟩ := hexec (s.bump 0)
    exact ⟨t, hs.trans he, hrom, hcfg⟩
  · exact ⟨t, hs, by rw [ht], by rw [ht]⟩

/-- Settles O39: cell 0 after an executed cycle is its value after the commit, plus one; any other step keeps the memory. -/
theorem pcIsWrittenOnlyByCommitAndAdvance : Obligations.PcIsWrittenOnlyByCommitAndAdvance := by
  unfold Obligations.PcIsWrittenOnlyByCommitAndAdvance
  intro s
  rcases step_executes_or_stops s with ⟨i, hi, hs⟩ | ⟨hnone, t, hs, ht⟩
  · obtain ⟨alu, -, hexec⟩ := exec_spec i
    obtain ⟨t, he, ⟨-, -, hpc, -⟩, -⟩ := hexec (s.bump 0)
    refine ⟨t, hs.trans he, fun _ => ?_, fun hnone => absurd ⟨i, hi⟩ hnone⟩
    rw [hpc, bump_afterCommit, BitVec.toNat_add]
    rfl
  · refine ⟨t, hs, fun hsome => absurd hsome hnone, fun _ => ?_⟩
    rw [ht]
    rfl

/-- Settles O2: the empty ROM ends at PC 0, so the first fetch halts. -/
theorem resetOfTheModelHaltsAtFirstFetch : Obligations.ResetOfTheModelHaltsAtFirstFetch := by
  unfold Obligations.ResetOfTheModelHaltsAtFirstFetch
  exact ⟨rfl, rfl, rfl, _, step_of_end_of_rom rfl (Nat.zero_le _), rfl, rfl, rfl, by decide⟩

/-! ### A word placed by the host -/

theorem getElem?_placeLine (rom : List RomLine) (p : Nat) (line : RomLine) :
    (placeLine rom p line)[p]? = some line := by
  unfold placeLine
  split
  · next h => simp [h]
  · next h =>
    have hlen : (rom ++ List.replicate (p - rom.length) (RomLine.word 0)).length = p := by
      simp only [List.length_append, List.length_replicate]
      omega
    rw [List.getElem?_append_right hlen.le, hlen, Nat.sub_self]
    rfl

theorem decodeTableWord_eq_some {nbits w : Nat} {i : Instr} (h : decodeTableWord nbits w = some i) :
    w < 2 ^ 58 ∧ decodeWord (BitVec.ofNat 58 w) = .ok i := by
  unfold decodeTableWord at h
  split at h
  · next hw =>
    split at h
    · next j hd => exact ⟨hw, hd.trans (congrArg Except.ok (Option.some.inj h))⟩
    · cases h
  · cases h

/-- A placed word is fetched, whatever the state it is placed in (log entry 18). -/
theorem withFetchWord_executes {nbits w : Nat} {i : Instr} (h : decodeTableWord nbits w = some i) (s : State) :
    (s.withFetchWord nbits w).Executes i := by
  obtain ⟨hw, hd⟩ := decodeTableWord_eq_some h
  rw [State.withFetchWord, if_pos hw]
  exact ⟨rfl, _, getElem?_placeLine _ _ _, hd⟩

/-- Settles O57: the state with the word placed executes it. -/
theorem placedWordIsTheNextInstruction : Obligations.PlacedWordIsTheNextInstruction := by
  unfold Obligations.PlacedWordIsTheNextInstruction
  intro s nbits w i h
  exact step_of_executes (withFetchWord_executes h s)

end Sys2Proof.Machine
end

section
/-! Diagnostics never reach the architecture (R21, R37): states that agree on the architecture go the same way of a step,
and each way answers states that agree. -/

namespace Sys2Proof.Machine

section
variable {s s' : State} (h : SameArchitecture s s')
include h

theorem SameArchitecture.afterCommit_eq : s.afterCommit = s'.afterCommit := by
  obtain ⟨hn, hcell, hwb, -⟩ := h
  funext j
  simp only [State.afterCommit, hn, hcell, hwb]

theorem SameArchitecture.pendingOf_eq (alu : Word → Word → Word → AluOut) (i : Instr) :
    s.pendingOf alu i = s'.pendingOf alu i := by
  have hn : s.cfg.nAddr = s'.cfg.nAddr := h.1
  simp only [State.pendingOf, State.operandValue, hn, h.afterCommit_eq]

/-- The counted fetch of step 1 changes a counter alone. -/
theorem SameArchitecture.bump (i : Nat) : SameArchitecture (s.bump i) (s'.bump i) := h

theorem SameArchitecture.halt : SameArchitecture s.halt s'.halt := by
  obtain ⟨hn, hcell, hwb, -, hcause, hrom⟩ := h
  exact ⟨hn, hcell, hwb, rfl, hcause, hrom⟩

theorem SameArchitecture.takeFault (c : Cause) : SameArchitecture (s.takeFault c) (s'.takeFault c) := by
  obtain ⟨hn, hcell, hwb, -, -, hrom⟩ := h
  exact ⟨hn, hcell, hwb, rfl, rfl, hrom⟩

/-- Cycles that end with the same result pending keep the agreement. -/
theorem SameArchitecture.cycleEnds {t t' : State} {p : WriteBack} (ht : CycleEnds s t p) (ht' : CycleEnds s' t' p) :
    SameArchitecture t t' := by
  have hcommit := h.afterCommit_eq
  obtain ⟨hn, -, -, hrun, hcause, hrom⟩ := h
  obtain ⟨hwb1, hcell1, hpc1, hrom1, hcfg1, hrun1, hcause1, -⟩ := ht
  obtain ⟨hwb2, hcell2, hpc2, hrom2, hcfg2, hrun2, hcause2, -⟩ := ht'
  refine ⟨?_, fun j => ?_, hwb1.trans hwb2.symm, ?_, ?_, ?_⟩
  · rw [hcfg1, hcfg2, hn]
  · by_cases hj : j = 0
    · subst hj
      calc t.cell 0 = s.afterCommit 0 + 1 := hpc1
        _ = s'.afterCommit 0 + 1 := by rw [hcommit]
        _ = t'.cell 0 := hpc2.symm
    · rw [hcell1 j hj, hcell2 j hj, hcommit]
  · rw [hrun1, hrun2, hrun]
  · rw [hcause1, hcause2, hcause]
  · rw [hrom1, hrom2, hrom]

theorem SameArchitecture.exec (i : Instr) :
    ∃ t t', Machine.exec i s = .next t ∧ Machine.exec i s' = .next t' ∧ SameArchitecture t t' := by
  obtain ⟨alu, -, hexec⟩ := exec_spec i
  obtain ⟨t, he, ht, -⟩ := hexec s
  obtain ⟨t', he', ht', -⟩ := hexec s'
  rw [← h.pendingOf_eq alu i] at ht'
  exact ⟨t, t', he, he', h.cycleEnds ht ht'⟩

end

/-- Settles O42: run state, PC and ROM decide the way of a step, and the second state goes the way of the first. -/
theorem diagnosticsNeverReachTheArchitecture : Obligations.DiagnosticsNeverReachTheArchitecture := by
  unfold Obligations.DiagnosticsNeverReachTheArchitecture
  intro s s' h
  have ⟨_, hcell, _, hrun, _, hrom⟩ := h
  have hpc : s.pc = s'.pc := hcell 0
  rcases step_cases s with ⟨hne, hs⟩ | ⟨hr, hend, hs⟩ | ⟨hr, line, e, hl, hd, hs⟩ | ⟨hr, line, i, hl, hd, hs⟩
  · have hs' : step s' = .next s' := step_of_ended (by rwa [State.Ended, ← hrun])
    exact ⟨s, s', hs, hs', h⟩
  · have hs' := step_of_end_of_rom (hrun.symm.trans hr) (by rwa [← hrom, ← hpc])
    exact ⟨_, _, hs, hs', (h.bump 0).halt⟩
  · have hs' := step_of_reject (hrun.symm.trans hr) (by rwa [← hrom, ← hpc]) hd
    exact ⟨_, _, hs, hs', (h.bump 0).takeFault _⟩
  · have hs' := step_of_decoded (hrun.symm.trans hr) (by rwa [← hrom, ← hpc]) hd
    rw [hs, hs']
    exact (h.bump 0).exec i

end Sys2Proof.Machine
end

section
/-! The invariant (R22, R33, R36): it holds at power-on and after a launch, and every step keeps it. -/

namespace Sys2Proof.Machine

theorem rejectCause_ne_none (e : Reject) : rejectCause e ≠ .none := by
  cases e <;> simp [rejectCause]

theorem causeOk_of_running {s : State} (hr : s.run = .running) : s.CauseOk ↔ s.cause = .none := by
  simp [State.CauseOk, hr]

theorem bump_zero_cellsOk {s : State} (h : s.CellsOk) : (s.bump 0).CellsOk := bump_cellsOk h (nAddr_pos _)

theorem takeFault_inv {s : State} (h : s.CellsOk) {c : Cause} (hc : c ≠ .none) : (s.takeFault c).Inv :=
  ⟨takeFault_cellsOk h c, by simp [State.CauseOk, hc]⟩

theorem halt_inv {s : State} (h : s.CellsOk) (hc : s.cause = .none) : s.halt.Inv :=
  ⟨halt_cellsOk h, by simp [State.CauseOk, hc]⟩

theorem exec_inv (i : Instr) {s : State} (h : s.Inv) : ∃ t, exec i s = .next t ∧ t.Inv := by
  obtain ⟨hcells, hcause⟩ := h
  obtain ⟨alu, -, hexec⟩ := exec_spec i
  obtain ⟨t, he, ⟨-, -, -, -, -, hrun, hcauseEq, -⟩, hdiag⟩ := hexec s
  exact ⟨t, he, hdiag.cellsOk hcells, by rwa [State.CauseOk, hrun, hcauseEq]⟩

/-- Settles O43: the counted fetch keeps the cells and the cause; then each way of a step keeps the invariant. -/
theorem everyStepKeepsTheInvariant : Obligations.EveryStepKeepsTheInvariant := by
  unfold Obligations.EveryStepKeepsTheInvariant
  rintro s ⟨hcells, hcause⟩
  have hfetched : (s.bump 0).CellsOk := bump_zero_cellsOk hcells
  rcases step_cases s with ⟨-, hs⟩ | ⟨hr, -, hs⟩ | ⟨-, line, e, -, -, hs⟩ | ⟨-, line, i, -, -, hs⟩
  · exact ⟨s, hs, hcells, hcause⟩
  · exact ⟨_, hs, halt_inv hfetched ((causeOk_of_running hr).mp hcause)⟩
  · exact ⟨_, hs, takeFault_inv hfetched (rejectCause_ne_none e)⟩
  · rw [hs]
    exact exec_inv i ⟨hfetched, hcause⟩

theorem powerOn_cellsOk {cfg : Config} {mem0 : Memory} (hwf : Memory.wf mem0) (hwin : Cells.inWindow cfg.nAddr mem0)
    (rom : List RomLine) : (State.powerOn cfg mem0 rom).CellsOk :=
  ⟨hwf, hwin, ⟨.nil, by simp⟩, by simp⟩

/-- Settles O44: nothing is listed at reset, and the cause is NONE. -/
theorem resetMeetsTheInvariant : Obligations.ResetMeetsTheInvariant :=
  ⟨powerOn_cellsOk ⟨.nil, by simp⟩ (by simp) [], (causeOk_of_running rfl).mpr rfl⟩

theorem loadedState_inv (cfg : Config) (inp : LaunchInput) (rom : List RomLine) : (loadedState cfg inp rom).Inv := by
  obtain ⟨hwf, hwin⟩ := powerOnMemory_ok cfg.nAddr inp.mem0
  have hcells := loadWords_cellsOk (powerOn_cellsOk hwf hwin rom) cfg.inBase (inputWords inp.input)
  unfold loadedState
  split
  · refine ⟨hcells, (causeOk_of_running ?_).mpr ?_⟩ <;> rw [loadWords_frame] <;> rfl
  · exact takeFault_inv hcells (by simp)

/-- Settles O45: a launch that answers a state answers a loaded one. -/
theorem launchMeetsTheInvariant : Obligations.LaunchMeetsTheInvariant := by
  unfold Obligations.LaunchMeetsTheInvariant
  intro inp s h
  obtain ⟨k, rom, -, -, rfl⟩ := launch_next h
  exact loadedState_inv _ inp rom

end Sys2Proof.Machine
end

section
/-! Memory reads and writes (R41, R42), the top of the window (R60) and the bounds check (R49, R50). -/

namespace Sys2Proof.Machine

/-! ### Addresses below zero -/

/-- An address and its 16-bit form select one cell (R13, R43). -/
theorem ofInt_toNat_mod (c : Config) (addr : Int) :
    (BitVec.ofInt 16 addr).toNat % c.nAddr = cellIndex c addr := by
  have h : ((BitVec.ofInt 16 addr).toNat : Int) = addr % 65536 := by
    rw [BitVec.toNat_ofInt]
    exact Int.toNat_of_nonneg (Int.emod_nonneg addr (by decide))
  rw [← cellIndex_natCast, h]
  exact cellIndex_congr c (Int.mod_modEq addr 65536)

theorem cellIndex_neg (c : Config) {k : Nat} (h1 : 1 ≤ k) (hk : k ≤ c.nAddr) :
    cellIndex c (-(k : Int)) = c.nAddr - k := by
  have hmod : -(k : Int) % c.nAddr = c.nAddr - k := by
    rw [← Int.add_emod_right, Int.emod_eq_of_lt (by omega) (by omega)]
    omega
  unfold cellIndex
  omega

/-- Settles O10: `-k` and `N_ADDR - k` have one residue, and the 16-bit form of an address keeps its cell. -/
theorem negativeAddressesSelectTheTopOfTheWindow : Obligations.NegativeAddressesSelectTheTopOfTheWindow := by
  unfold Obligations.NegativeAddressesSelectTheTopOfTheWindow
  intro c k h1 hk
  exact ⟨cellIndex_neg c h1 hk, (ofInt_toNat_mod c _).trans (cellIndex_neg c h1 hk)⟩

/-! ### Reads and writes -/

theorem toNat_emod_nAddr (c : Config) (addr : Int) : (addr % (c.nAddr : Int)).toNat = cellIndex c addr := rfl

/-- Settles O7: a read answers the selected cell and counts an access on it (`memRead_fst`, `memRead_snd`). -/
theorem memoryReadCountsOneAccess : Obligations.MemoryReadCountsOneAccess := by
  unfold Obligations.MemoryReadCountsOneAccess
  intro s addr
  rw [toNat_emod_nAddr]
  refine ⟨memRead_fst addr s, fun j => ?_, rfl⟩
  rw [memRead_snd, bump_count]
  by_cases h : j = cellIndex s.cfg addr
  · simp [h]
  · simp [h, Ne.symm h]

/-- Settles O8: a write sets and counts the selected cell alone (`memWrite_cell`, `memWrite_count`). -/
theorem memoryWriteStoresModulo65536 : Obligations.MemoryWriteStoresModulo65536 := by
  unfold Obligations.MemoryWriteStoresModulo65536
  intro s addr v
  rw [toNat_emod_nAddr]
  refine ⟨?_, fun j hj => ?_, ?_, fun j hj => ?_, rfl⟩
  · simp
  · simp [Ne.symm hj]
  · simp
  · simp [Ne.symm hj]

/-! ### The bounds check -/

theorem flagged_iff (c : Config) (raw : Word) : flagged c raw = true ↔ InFlaggedBand c raw.toNat := by
  simp [flagged, InFlaggedBand]

/-- Settles O13: the check's condition is membership of a flagged band. -/
theorem boundsCheckOnlyWarns : Obligations.BoundsCheckOnlyWarns := by
  unfold Obligations.BoundsCheckOnlyWarns
  intro origin raw s
  rw [← flagged_iff, State.boundsCheck]
  exact ⟨fun h => if_pos h, fun h => if_neg h⟩

end Sys2Proof.Machine
end

section
/-! What the resolver and every instruction leave in the counters and the warnings (R44 to R51). -/

namespace Sys2Proof.Machine

/-- Reads leave nothing changed but the counters and the warnings. -/
theorem ReadsOnly.frame {s t : State} {origin : Word} {rs : List Word} (h : ReadsOnly s t origin rs) :
    t = { s with cnt := t.cnt, warnings := t.warnings } := by
  obtain ⟨hcfg, hmem, hwb, hrun, hcause, hrom, hsteps, -, -, -⟩ := h
  rw [← hcfg, ← hmem, ← hwb, ← hrun, ← hcause, ← hrom, ← hsteps]

/-- Settles O12: `resolve_spec` gives the value as a chain of dereferences and the effect as reads of its trail. -/
theorem resolveReadsOncePerDereference : Obligations.ResolveReadsOncePerDereference := by
  unfold Obligations.ResolveReadsOncePerDereference
  intro origin o s
  obtain ⟨hvalue, hreads⟩ := resolve_spec origin o s
  have hmodes : ∀ m, o.mode = m → (s.resolve origin o).1 = chase s.cfg.nAddr s.cell m.depth o.lit := by
    rintro m rfl
    exact hvalue
  refine ⟨fun himm => ⟨hmodes .imm himm, ?_⟩, hmodes .a, hmodes .b, hmodes .c,
    length_trail _ _ _ _, hreads.count, hreads.warnings, hreads.frame⟩
  rw [State.resolve, himm]
  rfl

/-- What an instruction's cycle leaves in the diagnostic state, whatever its ALU arm. -/
theorem exec_diagEnds (i : Instr) (s : State) : ∃ t, exec i s = .next t ∧ DiagEnds s t (s.instrTrail i) := by
  obtain ⟨alu, -, hexec⟩ := exec_spec i
  obtain ⟨t, he, -, hdiag⟩ := hexec s
  exact ⟨t, he, hdiag⟩

/-- Settles O30: the counters of `exec_diagEnds`. -/
theorem everyInstructionCountsItsAccesses : Obligations.EveryInstructionCountsItsAccesses := by
  unfold Obligations.EveryInstructionCountsItsAccesses
  intro i s
  obtain ⟨t, he, hdiag⟩ := exec_diagEnds i s
  exact ⟨t, he, hdiag.count⟩

/-- Settles O31: the warnings of `exec_diagEnds`. -/
theorem everyInstructionWarnsInOperandOrder : Obligations.EveryInstructionWarnsInOperandOrder := by
  unfold Obligations.EveryInstructionWarnsInOperandOrder
  intro i s
  obtain ⟨t, he, hdiag⟩ := exec_diagEnds i s
  exact ⟨t, he, hdiag.warnings⟩

end Sys2Proof.Machine
end

section
/-! A result waits one cycle in `wb` and is in memory for the next instruction's operands (R63, R114, R129). -/

namespace Sys2Proof.Machine

@[simp] theorem committed_cfg (s : State) : s.committed.cfg = s.cfg := rfl

section
variable {s : State} (h : s.wb.active = true)
include h

theorem afterCommit_dest : s.afterCommit (s.wb.dest.toNat % s.cfg.nAddr) = s.wb.value :=
  if_pos ⟨h, rfl⟩

/-- The committed machine's memory is the one step 3 leaves (R114). -/
theorem committed_cell (j : Nat) : s.committed.cell j = s.afterCommit j := by
  rw [commit_eq_committed h]
  exact commit_cell s j

theorem resolve_committed (origin : Word) (o : Operand) : (s.committed.resolve origin o).1 = s.operandValue o := by
  rw [(resolve_spec origin o s.committed).1, funext (committed_cell h), committed_cfg]
  rfl

/-- A mode-1 operand that selects the pending destination has the pending result. -/
theorem operandValue_dest {l : Word} (hl : l.toNat % s.cfg.nAddr = s.wb.dest.toNat % s.cfg.nAddr) :
    s.operandValue { mode := .a, lit := l } = s.wb.value := by
  rw [← afterCommit_dest h, ← hl]
  rfl

end

theorem afterCommit_of_ne (s : State) {j : Nat} (hj : j ≠ s.wb.dest.toNat % s.cfg.nAddr) : s.afterCommit j = s.cell j :=
  if_neg fun h => hj h.2.symm

/-- Settles O32: a cycle ends with its result in `wb`, the next instruction runs as on the committed machine
(`exec_committed`), and its own commit puts the result in memory. -/
theorem resultIsVisibleFromTheNextCycle : Obligations.ResultIsVisibleFromTheNextCycle := by
  unfold Obligations.ResultIsVisibleFromTheNextCycle
  intro i k s
  obtain ⟨alu, -, hexec⟩ := exec_spec i
  obtain ⟨t, ht, ⟨-, hcell, -, -, hcfg, -⟩, -⟩ := hexec s
  obtain ⟨alu', hdest, hexec'⟩ := exec_spec k
  obtain ⟨u, hu, ⟨hwb', hcell', -⟩, -⟩ := hexec' (t.bump 0)
  refine ⟨t, u, ht, hu, hcell, fun hactive hd => ?_⟩
  rw [← hcfg] at hd ⊢
  have hpend : (t.bump 0).wb.active = true := hactive
  have hnew : u.wb.dest = (t.bump 0).operandValue k.operands.2.2 := by
    rw [hwb']
    exact hdest _ _ _
  refine ⟨(exec_committed k hpend hd).symm.trans hu, ?_, fun j hj => ?_, resolve_committed hpend, fun l hl => ?_, ?_⟩
  · exact (committed_cell hpend _).trans (afterCommit_dest hpend)
  · exact (committed_cell hpend j).trans (afterCommit_of_ne (t.bump 0) hj)
  · have hl' := operandValue_dest hpend hl
    exact ⟨hl', fun ho3 => by rw [hnew, ho3, hl']; rfl⟩
  · exact (hcell' _ hd).trans (afterCommit_dest hpend)

end Sys2Proof.Machine
end

section
/-! The word form (R81, R85, R90): every word is put together from seven fields, and decoding reads them back. -/

namespace Sys2Proof.Machine

theorem exists_diwOf (w : Diw) : ∃ f m1 l1 m2 l2 m3 l3, w = diwOf f m1 l1 m2 l2 m3 l3 :=
  ⟨_, _, _, _, _, _, _, (diwOf_fields w).symm⟩

section
variable (f : BitVec 4) (m1 m2 m3 : BitVec 2) (l1 l2 l3 : Word)

/-- The opcode field is bits 57 to 54 (R81). -/
theorem diwOf_toNat_div : (diwOf f m1 l1 m2 l2 m3 l3).toNat / 2 ^ 54 = f.toNat := by
  have hlt := (diwOf f m1 l1 m2 l2 m3 l3).isLt
  have hfield := congrArg BitVec.toNat (diwOf_opc f m1 m2 m3 l1 l2 l3)
  rw [BitVec.extractLsb'_toNat, Nat.shiftRight_eq_div_pow] at hfield
  omega

variable {f}

theorem decodeWord_diwOf {op : Opcode} (h : opcodeOfField f = some op) :
    decodeWord (diwOf f m1 l1 m2 l2 m3 l3) =
      .ok (op.instr ⟨modeOfField m1, l1⟩ ⟨modeOfField m2, l2⟩ ⟨modeOfField m3, l3⟩) := by
  simp only [decodeWord, diwOf_opc, diwOf_m1, diwOf_l1, diwOf_m2, diwOf_l2, diwOf_m3, diwOf_l3, h]

theorem decodeWord_diwOf_illegal (h : opcodeOfField f = none) :
    decodeWord (diwOf f m1 l1 m2 l2 m3 l3) = .error (.illegalOpcode f) := by
  simp only [decodeWord, diwOf_opc, h]

end

/-- Settles O46: `encode` puts an instruction's fields together, and each table reads its own field back. -/
theorem decodeWordUndoesEncode : Obligations.DecodeWordUndoesEncode := by
  unfold Obligations.DecodeWordUndoesEncode
  intro i
  rw [encode_eq, decodeWord_diwOf _ _ _ _ _ _ (opcodeOfField_field _)]
  simp only [modeOfField_field]
  exact congrArg Except.ok (instr_eta i)

/-- Settles O47: the fields of a word that decodes are those its opcode and modes are encoded by. -/
theorem encodeUndoesDecodeWord : Obligations.EncodeUndoesDecodeWord := by
  unfold Obligations.EncodeUndoesDecodeWord
  intro w i h
  obtain ⟨f, m1, l1, m2, l2, m3, l3, rfl⟩ := exists_diwOf w
  cases hf : opcodeOfField f with
  | none =>
    rw [decodeWord_diwOf_illegal _ _ _ _ _ _ hf] at h
    cases h
  | some op =>
    rw [decodeWord_diwOf _ _ _ _ _ _ hf] at h
    cases h
    simp only [encode_eq, opcode_instr, operands_instr, field_modeOfField, field_of_opcodeOfField f op hf]

/-- Settles O48: the opcode field alone selects an opcode or none, and a fetched word without one is rejected. -/
theorem diwIsIllegalExactlyByItsOpcodeField : Obligations.DiwIsIllegalExactlyByItsOpcodeField := by
  unfold Obligations.DiwIsIllegalExactlyByItsOpcodeField
  intro w
  obtain ⟨f, m1, l1, m2, l2, m3, l3, rfl⟩ := exists_diwOf w
  rw [diwOf_toNat_div]
  refine ⟨fun hlegal => ?_, fun hillegal => ?_⟩
  · have hsome : opcodeOfField f ≠ none := fun h => absurd ((opcodeOfField_eq_none f).mp h) hlegal.not_ge
    obtain ⟨op, hop⟩ := Option.ne_none_iff_exists'.mp hsome
    exact ⟨_, decodeWord_diwOf _ _ _ _ _ _ hop⟩
  · have hd := decodeWord_diwOf_illegal m1 m2 m3 l1 l2 l3 ((opcodeOfField_eq_none f).mpr hillegal)
    exact ⟨⟨_, hd, rfl⟩, fun s hr hl => ⟨_, step_of_reject hr hl hd, rfl, rfl⟩⟩

/-- A word's own integer is the table word that decodes as it does (R86). -/
theorem decodeTableWord_encode (nbits : Nat) (i : Instr) : decodeTableWord nbits (encode i).toNat = some i := by
  rw [decodeTableWord, if_pos (encode i).isLt, BitVec.ofNat_toNat, BitVec.setWidth_eq, decodeWordUndoesEncode i]

/-- Settles O52: each legal word is the integer of its instruction's encoding; field 13 and 2^58 are evaluated. -/
theorem wordsOfTheVectorsDecode : Obligations.WordsOfTheVectorsDecode :=
  ⟨decodeTableWord_encode 58 (.add ⟨.imm, 5⟩ ⟨.imm, 7⟩ ⟨.imm, 100⟩),
    decodeTableWord_encode 58 (.sub ⟨.a, 0xFFFB⟩ ⟨.b, 0x0400⟩ ⟨.c, 0xFFFF⟩),
    decodeTableWord_encode 58 (.mnz ⟨.a, 10⟩ ⟨.imm, 1⟩ ⟨.imm, 0⟩),
    decodeTableWord_encode 58 (.and ⟨.a, 100⟩ ⟨.imm, 255⟩ ⟨.imm, 1000⟩),
    decodeTableWord_encode 58 (.sra ⟨.a, 10⟩ ⟨.imm, 1⟩ ⟨.imm, 11⟩), by decide, by decide⟩

end Sys2Proof.Machine
end


section
/-! The text form (R73 to R78, R89): the line decoder accepts exactly the lines of the grammar. -/

namespace Sys2Proof.Machine

/-! ### The token readers in a row -/

/-- A line decodes when its readers accept one after another, each what the one before left. -/
theorem decodeText_eq_ok_iff (line : List Char) (i : Instr) :
    decodeText line = .ok i ↔ ∃ c1 op c2 o1 c3 o2 c4 o3 c5,
      takeLineNumber (line.dropWhile isWs) = some c1 ∧ takeOpcode c1 = some (op, c2) ∧
      takeOperandWs c2 = some (o1, c3) ∧ takeOperandWs c3 = some (o2, c4) ∧ takeOperand c4 = some (o3, c5) ∧
      tailOk c5 = true ∧ op.instr o1 o2 o3 = i := by
  constructor
  · intro h
    unfold decodeText at h
    split at h
    · cases h
    next c1 h1 =>
    split at h
    · cases h
    next op c2 h2 =>
    split at h
    · cases h
    next o1 c3 h3 =>
    split at h
    · cases h
    next o2 c4 h4 =>
    split at h
    · cases h
    next o3 c5 h5 =>
    split at h
    · next h6 => exact ⟨c1, op, c2, o1, c3, o2, c4, o3, c5, h1, h2, h3, h4, h5, h6, Except.ok.inj h⟩
    · cases h
  · rintro ⟨c1, op, c2, o1, c3, o2, c4, o3, c5, h1, h2, h3, h4, h5, h6, rfl⟩
    simp only [decodeText, h1, h2, h3, h4, h5, h6, if_true]

/-- The line decoder sees nothing of the line but what its first reader leaves. -/
theorem decodeText_congr {l l' : List Char}
    (h : takeLineNumber (l.dropWhile isWs) = takeLineNumber (l'.dropWhile isWs)) : decodeText l = decodeText l' := by
  unfold decodeText
  rw [h]

/-! ### Where each token of a line ends -/

theorem isDigit_not_isWs {d : Char} (h : d.isDigit = true) : isWs d = false := by
  rw [Bool.eq_false_iff]
  intro hw
  rcases (isWs_iff d).mp hw with rfl | rfl <;> exact absurd h (by decide)

theorem stopsBefore_ws_of_digits {ds : List Char} (h : Digits ds) (rest : List Char) :
    StopsBefore isWs (ds ++ rest) := by
  obtain ⟨d, t, rfl, hd⟩ := digits_head h
  exact stopsBefore_cons (isDigit_not_isWs hd)

/-- Whitespace before a number is skipped, and only that. -/
theorem dropWhile_isWs_blank_digits {w ds : List Char} (hw : Blank w) (h : Digits ds) (rest : List Char) :
    (w ++ (ds ++ rest)).dropWhile isWs = ds ++ rest :=
  (takeWhile_of_stops ((blank_iff w).mp hw) (stopsBefore_ws_of_digits h rest)).2

theorem stopsBefore_ws_of_mnemonic (op : Opcode) (rest : List Char) : StopsBefore isWs (op.mnemonic ++ rest) := by
  cases op <;> exact stopsBefore_cons (by decide)

/-- Neither whitespace nor a comment goes on with a number. -/
theorem stopsBefore_digit_of_tail {w tail : List Char} (hw : Blank w)
    (ht : tail = [] ∨ ∃ rest, tail = ';' :: rest) : StopsBefore Char.isDigit (w ++ tail) := by
  by_cases hne : w = []
  · subst hne
    rcases ht with rfl | ⟨rest, rfl⟩
    · exact stopsBefore_nil _
    · exact stopsBefore_cons (by decide)
  · exact stopsBefore_digit_of_blank hw hne

/-! ### The grammar -/

theorem lineOfGrammar_of_decodeText {line : List Char} {i : Instr} (h : decodeText line = .ok i) :
    LineOfGrammar line i.opcode i.operands.1 i.operands.2.1 i.operands.2.2 := by
  obtain ⟨c1, op, c2, o1, c3, o2, c4, o3, c5, h1, h2, h3, h4, h5, h6, rfl⟩ := (decodeText_eq_ok_iff line i).mp h
  obtain ⟨n, w1, e0, hn, hw1, hne1, -⟩ := (takeLineNumber_eq_some _ _).mp h1
  obtain ⟨w2, rfl, hw2, hne2, -⟩ := (takeOpcode_eq_some _ _ _).mp h2
  obtain ⟨t1, w3, rfl, ht1, hw3, hne3, -⟩ := (takeOperandWs_eq_some _ _ _).mp h3
  obtain ⟨t2, w4, rfl, ht2, hw4, hne4, -⟩ := (takeOperandWs_eq_some _ _ _).mp h4
  obtain ⟨t3, rfl, ht3, -⟩ := (takeOperand_eq_some _ _ _).mp h5
  obtain ⟨w5, tail, rfl, hw5, htail⟩ := (tailOk_iff _).mp h6
  rw [opcode_instr, operands_instr]
  refine ⟨line.takeWhile isWs, n, w1, w2, t1, w3, t2, w4, t3, w5, tail, ?_, (blank_iff _).mpr (takeWhile_all _ _),
    hn, hw1, hne1, hw2, hne2, ht1, hw3, hne3, ht2, hw4, hne4, ht3, hw5, htail⟩
  conv_lhs => rw [← List.takeWhile_append_dropWhile (p := isWs) (l := line), e0]
  simp only [List.append_assoc, List.cons_append, List.nil_append]

theorem decodeText_of_lineOfGrammar {line : List Char} {op : Opcode} {o1 o2 o3 : Operand}
    (h : LineOfGrammar line op o1 o2 o3) : decodeText line = .ok (op.instr o1 o2 o3) := by
  obtain ⟨w0, n, w1, w2, t1, w3, t2, w4, t3, w5, tail, rfl, hw0, hn, hw1, hne1, hw2, hne2, ht1, hw3, hne3, ht2, hw4,
    hne4, ht3, hw5, htail⟩ := h
  simp only [List.append_assoc, List.cons_append, List.nil_append]
  refine (decodeText_eq_ok_iff _ _).mpr ⟨_, op, _, o1, _, o2, _, o3, w5 ++ tail, ?_,
    (takeOpcode_eq_some _ _ _).mpr ⟨w2, rfl, hw2, hne2, stopsBefore_ws_of_token ht1⟩,
    (takeOperandWs_eq_some _ _ _).mpr ⟨t1, w3, rfl, ht1, hw3, hne3, stopsBefore_ws_of_token ht2⟩,
    (takeOperandWs_eq_some _ _ _).mpr ⟨t2, w4, rfl, ht2, hw4, hne4, stopsBefore_ws_of_token ht3⟩,
    (takeOperand_eq_some _ _ _).mpr ⟨t3, rfl, ht3, stopsBefore_digit_of_tail hw5 htail⟩,
    (tailOk_iff _).mpr ⟨w5, tail, rfl, hw5, htail⟩, rfl⟩
  rw [dropWhile_isWs_blank_digits hw0 hn]
  exact (takeLineNumber_eq_some _ _).mpr ⟨n, w1, rfl, hn, hw1, hne1, stopsBefore_ws_of_mnemonic op _⟩

/-- Settles O53: the readers accept the tokens of the grammar in its order, and a rejected line is malformed. -/
theorem textLineDecodesExactlyByTheGrammar : Obligations.TextLineDecodesExactlyByTheGrammar := by
  unfold Obligations.TextLineDecodesExactlyByTheGrammar
  intro line
  refine ⟨fun op o1 o2 o3 => ⟨fun h => ?_, decodeText_of_lineOfGrammar⟩, fun hnone => ?_⟩
  · simpa only [opcode_instr, operands_instr] using lineOfGrammar_of_decodeText h
  · cases h : decodeText line with
    | ok i => exact absurd ⟨_, _, _, _, lineOfGrammar_of_decodeText h⟩ hnone
    | error e =>
      obtain ⟨x, rfl⟩ := decodeText_error h
      exact ⟨_, rfl, rfl⟩

/-! ### The model's own spelling (log entry 21) -/

theorem lastDigit_toNat (n : Nat) : (lastDigit n).toNat = 48 + n % 10 := by
  have h : ∀ k < 10, (Char.ofNat (48 + k)).toNat = 48 + k := by decide
  exact h _ (Nat.mod_lt n (by decide))

theorem lastDigit_isDigit (n : Nat) : (lastDigit n).isDigit = true := by
  have h : ∀ k < 10, (Char.ofNat (48 + k)).isDigit = true := by decide
  exact h _ (Nat.mod_lt n (by decide))

theorem renderLit_digits (w : Word) : Digits (renderLit w) := by
  refine ⟨by simp [renderLit], fun ch hch => ?_⟩
  simp only [renderLit, List.mem_cons, List.not_mem_nil, or_false] at hch
  rcases hch with rfl | rfl | rfl | rfl | rfl <;> exact lastDigit_isDigit _

/-- Five decimal digits hold every 16-bit literal. -/
theorem digitsValue_renderLit (w : Word) : digitsValue (renderLit w) = w.toNat := by
  have hlt := w.isLt
  simp only [digitsValue, renderLit, List.foldl_cons, List.foldl_nil, lastDigit_toNat, Char.reduceToNat]
  omega

theorem renderOperand_token (o : Operand) : OperandToken (renderOperand o) o := by
  refine ⟨renderLit o.lit, renderLit_digits _, .inl ⟨rfl, ?_⟩⟩
  rw [digitsValue_renderLit, BitVec.ofInt_natCast, BitVec.ofNat_toNat, BitVec.setWidth_eq]

theorem renderLine_lineOfGrammar (i : Instr) {tail : List Char} (ht : tail = [] ∨ ∃ rest, tail = ';' :: rest) :
    LineOfGrammar (renderLine i ++ tail) i.opcode i.operands.1 i.operands.2.1 i.operands.2.2 := by
  have hspace : Blank [' '] := by simp [Blank]
  refine ⟨[], ['0'], [' '], [' '], _, [' '], _, [' '], _, [], tail, ?_, by simp [Blank], by simp [Digits], hspace,
    by simp, hspace, by simp, renderOperand_token _, hspace, by simp, renderOperand_token _, hspace, by simp,
    renderOperand_token _, by simp [Blank], ht⟩
  simp [renderLine]

theorem decodeText_renderLine (i : Instr) {tail : List Char} (ht : tail = [] ∨ ∃ rest, tail = ';' :: rest) :
    decodeText (renderLine i ++ tail) = .ok i :=
  (decodeText_of_lineOfGrammar (renderLine_lineOfGrammar i ht)).trans (congrArg Except.ok (instr_eta i))

/-- Settles O49: the rendered line is a line of the grammar, with a comment or none; its word decodes by
`decodeWordUndoesEncode`. -/
theorem textLineDecodesToItsInstruction : Obligations.TextLineDecodesToItsInstruction := by
  unfold Obligations.TextLineDecodesToItsInstruction
  intro i
  have hplain : decodeText (renderLine i) = .ok i := by
    simpa only [List.append_nil] using decodeText_renderLine i (.inl rfl)
  have hword : decodeLine (.word (encode i)) = .ok i := decodeWordUndoesEncode i
  exact ⟨hplain, hplain.trans hword.symm, fun rest => decodeText_renderLine i (.inr ⟨rest, rfl⟩)⟩

/-! ### Line numbers and operand tokens -/

/-- The line-number reader leaves the same rest whatever the number. -/
theorem takeLineNumber_digits {ds : List Char} (h : Digits ds) (rest : List Char) :
    takeLineNumber ((ds ++ '.' :: rest).dropWhile isWs) = skipWs rest := by
  have hdrop : (ds ++ '.' :: rest).dropWhile isWs = ds ++ '.' :: rest :=
    dropWhile_isWs_blank_digits (w := []) (by simp [Blank]) h _
  have hdigits : takeDigits (ds ++ '.' :: rest) = some (digitsValue ds, '.' :: rest) :=
    (takeDigits_eq_some _ _ _).mpr ⟨ds, rfl, h, rfl, stopsBefore_cons (by decide)⟩
  simp only [takeLineNumber, hdrop, hdigits]

/-- Settles O50: both line numbers leave the same rest, and the decoder sees nothing else. -/
theorem lineNumberValueIsDiscarded : Obligations.LineNumberValueIsDiscarded := by
  unfold Obligations.LineNumberValueIsDiscarded
  intro ds body hne hds
  have hzero : Digits ['0'] := by simp [Digits]
  exact decodeText_congr ((takeLineNumber_digits ⟨hne, hds⟩ _).trans (takeLineNumber_digits hzero _).symm)

/-- Settles O51: a fold's value at one more digit, and the tokens `takeOperand` reads. -/
theorem operandTokenGivesModeAndLiteral : Obligations.OperandTokenGivesModeAndLiteral := by
  unfold Obligations.OperandTokenGivesModeAndLiteral
  refine ⟨rfl, fun ds d => ?_, fun m ds rest hne hds hrest => ⟨?_, ?_⟩⟩
  · simp only [digitsValue, List.foldl_append, List.foldl_cons, List.foldl_nil, Char.reduceToNat]
  · exact (takeOperand_eq_some _ _ _).mpr ⟨_, rfl, ⟨ds, ⟨hne, hds⟩, .inl ⟨rfl, rfl⟩⟩, hrest⟩
  · exact (takeOperand_eq_some _ _ _).mpr ⟨_, rfl, ⟨ds, ⟨hne, hds⟩, .inr ⟨rfl, rfl⟩⟩, hrest⟩

end Sys2Proof.Machine
end

section
/-! ROM text (R72): the file's lines in order, each without its line end, and the blank ones left out. -/

namespace Sys2Proof.Machine

/-- A line ended by LF or by CR LF is the first line of the text. -/
theorem splitLines_ended {l : List Char} (crlf : Bool) (hlf : '\n' ∉ l) (hcr : crlf = false → l.getLast? ≠ some '\r')
    (rest : List Char) :
    splitLines [] (l ++ (if crlf then ['\r', '\n'] else ['\n']) ++ rest) = l :: splitLines [] rest := by
  cases crlf with
  | false =>
    have h := splitLines_line [] l rest hlf
    rw [List.append_nil, dropCr_reverse (hcr rfl), List.reverse_reverse] at h
    simpa using h
  | true =>
    have h := splitLines_line [] (l ++ ['\r']) rest (by simp [hlf])
    simpa [dropCr] using h

theorem splitLines_flatMap {ls : List (List Char × Bool)} {last : List Char}
    (hls : ∀ x ∈ ls, '\n' ∉ x.1 ∧ (x.2 = false → x.1.getLast? ≠ some '\r')) (hlast : '\n' ∉ last) :
    splitLines [] ((ls.flatMap fun x => x.1 ++ if x.2 then ['\r', '\n'] else ['\n']) ++ last) =
      (ls.map fun x => x.1) ++ [last] := by
  induction ls with
  | nil => exact splitLines_last [] last hlast
  | cons x xs ih =>
    obtain ⟨hlf, hcr⟩ := hls x (by simp)
    rw [List.flatMap_cons, List.append_assoc, splitLines_ended x.2 hlf hcr, ih fun y hy => hls y (by simp [hy])]
    rfl

/-- The model's blank lines are the empty ones and those of spaces and tabs alone. -/
theorem not_all_isWs (l : List Char) : (!l.all isWs) = l.any fun ch => ch != ' ' && ch != '\t' := by
  simp only [List.not_all_eq_any_not, isWs, Bool.not_or]
  rfl

theorem blank_line_ends {ws : List Char} (h : ∀ ch ∈ ws, isWs ch = true) : '\n' ∉ ws ∧ ws.getLast? ≠ some '\r' :=
  ⟨fun hmem => absurd (h _ hmem) (by decide), fun hlast => absurd (h _ (List.mem_of_getLast? hlast)) (by decide)⟩

theorem romTextLines_blank {ws : List Char} (h : ∀ ch ∈ ws, isWs ch = true) (crlf : Bool) (file : List Char) :
    romTextLines (ws ++ (if crlf then ['\r', '\n'] else ['\n']) ++ file) = romTextLines file := by
  obtain ⟨hlf, hcr⟩ := blank_line_ends h
  have hblank : ws.all isWs = true := List.all_eq_true.mpr h
  rw [romTextLines, splitLines_ended crlf hlf fun _ => hcr]
  simp [romTextLines, hblank]

/-- Settles O54: the text is cut into its lines in order (`splitLines_flatMap`), and a blank one is filtered out. -/
theorem romTextKeepsTheLinesInFileOrder : Obligations.RomTextKeepsTheLinesInFileOrder := by
  unfold Obligations.RomTextKeepsTheLinesInFileOrder
  refine ⟨fun ls last hls hlast => ?_, fun ws file hws => ⟨?_, ?_⟩⟩
  · rw [romTextLines, splitLines_flatMap hls hlast]
    simp only [not_all_isWs]
  · simpa using romTextLines_blank hws false file
  · simpa using romTextLines_blank hws true file

end Sys2Proof.Machine
end

section
/-! The sequencer (R111 to R126): the frame of every instruction, the fetch that halts, and the delay slot of a PC write. -/

namespace Sys2Proof.Machine

/-! ### The frame and the write enable of an instruction -/

/-- Only the conditional moves have a condition; the arm of every other opcode writes always (R117). -/
theorem exec_alwaysWrites (i : Instr) (hmnz : i.opcode ≠ .mnz) (hmlz : i.opcode ≠ .mlz) :
    ∃ f, ∀ s, exec i s = executeCycle (alwaysWrites f) i.operands.1 i.operands.2.1 i.operands.2.2 s := by
  cases i with
  | mnz => exact absurd rfl hmnz
  | mlz => exact absurd rfl hmlz
  | add => exact ⟨addValue, fun _ => rfl⟩
  | sub => exact ⟨subValue, fun _ => rfl⟩
  | and => exact ⟨andValue, fun _ => rfl⟩
  | or => exact ⟨orValue, fun _ => rfl⟩
  | xor => exact ⟨xorValue, fun _ => rfl⟩
  | ant => exact ⟨antValue, fun _ => rfl⟩
  | sl => exact ⟨slValue, fun _ => rfl⟩
  | srl => exact ⟨srlValue, fun _ => rfl⟩
  | sra => exact ⟨sraValue, fun _ => rfl⟩
  | sru => exact ⟨sruValue, fun _ => rfl⟩
  | sre => exact ⟨sreValue, fun _ => rfl⟩

theorem exec_pends {i : Instr} (hmnz : i.opcode ≠ .mnz) (hmlz : i.opcode ≠ .mlz) {s t : State}
    (h : exec i s = .next t) : t.wb.active = true := by
  obtain ⟨f, hf⟩ := exec_alwaysWrites i hmnz hmlz
  obtain ⟨t', ht', ⟨hwb, -⟩, -⟩ := executeCycle_spec (alwaysWrites f) i.operands.1 i.operands.2.1 i.operands.2.2 s
  obtain rfl : t = t' := Host.Outcome.next.inj (h.symm.trans ((hf s).trans ht'))
  rw [hwb]
  rfl

/-- The pending destination is the value of operand 3, for every opcode (R117). -/
theorem exec_dest {i : Instr} {s t : State} (h : exec i s = .next t) :
    t.wb.dest = s.operandValue i.operands.2.2 := by
  obtain ⟨alu, hdest, hexec⟩ := exec_spec i
  obtain ⟨t', ht', ⟨hwb, -⟩, -⟩ := hexec s
  obtain rfl : t = t' := Host.Outcome.next.inj (h.symm.trans ht')
  rw [hwb]
  exact hdest _ _ _

/-- Settles O29: the cycle's frame (`exec_spec`), with the pending destination (`exec_dest`) and the write enable
(`exec_pends`). -/
theorem everyInstructionKeepsTheRestOfTheMachine : Obligations.EveryInstructionKeepsTheRestOfTheMachine := by
  unfold Obligations.EveryInstructionKeepsTheRestOfTheMachine
  intro i s
  obtain ⟨alu, -, hexec⟩ := exec_spec i
  obtain ⟨t, he, ⟨-, hcell, -, hrom, hcfg, hrun, hcause, hsteps⟩, -⟩ := hexec s
  refine ⟨t, he, hrom, hcfg, hrun, hcause, hsteps, exec_dest he, fun hmnz hmlz => exec_pends hmnz hmlz he,
    fun j hj hother => ?_⟩
  have hkept : s.afterCommit j = s.cell j := if_neg fun ⟨hactive, hd⟩ => hother hactive hd.symm
  exact (hcell j hj).trans hkept

/-! ### The fetch -/

/-- Settles O33: `step_of_executes`. -/
theorem stepRunsTheDecodedInstruction : Obligations.StepRunsTheDecodedInstruction := by
  unfold Obligations.StepRunsTheDecodedInstruction
  exact fun _ _ => step_of_executes

/-- A line at the PC is executed or faults; neither halts (R113). -/
theorem step_not_halted {s : State} (hr : s.run = .running) (hlt : s.pc.toNat < s.rom.length) :
    ∃ t, step s = .next t ∧ t.run ≠ .halted := by
  have hl : s.rom[s.pc.toNat]? = some s.rom[s.pc.toNat] := List.getElem?_eq_getElem hlt
  cases hd : decodeLine s.rom[s.pc.toNat] with
  | ok i =>
    obtain ⟨t, he, -, -, hrun, -⟩ := everyInstructionKeepsTheRestOfTheMachine i (s.bump 0)
    exact ⟨t, (step_of_decoded hr hl hd).trans he, by simp [hrun, hr]⟩
  | error e => exact ⟨_, step_of_reject hr hl hd, by simp⟩

/-- Settles O34: `step_of_end_of_rom` halts with the counted fetch alone; below L, and so always for an L that no 16-bit
PC reaches, `step_not_halted`. -/
theorem fetchAtOrBeyondTheEndHalts : Obligations.FetchAtOrBeyondTheEndHalts := by
  unfold Obligations.FetchAtOrBeyondTheEndHalts
  intro s hr
  refine ⟨fun hend => ⟨_, step_of_end_of_rom hr hend, rfl, ?_, rfl, fun j hj => ?_⟩, step_not_halted hr, fun hbig => ?_⟩
  · simp
  · simp [Ne.symm hj]
  · exact step_not_halted hr (s.pc.isLt.trans_le hbig)

/-! ### The delay slot of a PC write -/

/-- Settles O40: the slot runs as on the committed machine but for the warnings (`exec_committed_warnings`), whose cell 0
is T; its own advance leaves T + 1, and the step after is a fetch there. -/
theorem pcWriteHasOneDelaySlot : Obligations.PcWriteHasOneDelaySlot := by
  unfold Obligations.PcWriteHasOneDelaySlot
  intro s i hi hactive hzero
  have hpend : (s.bump 0).wb.active = true := hactive
  have htarget : (s.bump 0).afterCommit 0 = s.wb.value := if_pos ⟨hactive, hzero⟩
  obtain ⟨alu, -, hexec⟩ := exec_spec i
  obtain ⟨t, he, ⟨-, -, hpc, hrom, -, hrun, -⟩, -⟩ := hexec (s.bump 0)
  obtain ⟨t', u, he', hu, htu⟩ := exec_committed_warnings i hpend
  obtain rfl : t = t' := Host.Outcome.next.inj (he.symm.trans he')
  have hpcT : t.pc = s.wb.value + 1 := by rw [hpc, htarget]
  have hromT : t.rom = s.rom := hrom
  have hrunT : t.run = .running := hrun.trans hi.1
  refine ⟨t, u, (step_of_executes hi).trans he, he, hu, htu, (committed_cell hpend 0).trans htarget, fun j hj => ?_,
    resolve_committed hpend, fun l hl => ?_, hpcT, fun line k hline hd => ?_, fun hend => ?_⟩
  · exact (committed_cell hpend j).trans (afterCommit_of_ne (s.bump 0) (hj.trans_eq hzero.symm))
  · have hvalue : (s.bump 0).operandValue { mode := .a, lit := l } = s.wb.value :=
      operandValue_dest hpend (hl.trans hzero.symm)
    exact ⟨hvalue, fun ho3 => by rw [exec_dest he, ho3, hvalue]⟩
  · exact step_of_decoded hrunT (by rwa [hromT, hpcT]) hd
  · exact ⟨_, step_of_end_of_rom hrunT (by rwa [hromT, hpcT]), rfl, rfl⟩

end Sys2Proof.Machine
end

section
/-! The conditional moves (R141 to R143), and what every result statement needs: the encoding of an opcode's table row and
the end of a cycle whose ALU arm is known. -/

namespace Sys2Proof.Machine

/-! ### Rules shared by the result statements -/

/-- Each opcode is encoded by its own row of the tables of R82 and R88. -/
theorem encodedAs_instr (op : Opcode) : EncodedAs op.instr op.field op.mnemonic := by
  refine ⟨fun o1 o2 o3 => ?_, op, opcodeOfField_field op, opcodeOfToken_mnemonic op, rfl⟩
  rw [encode_eq, diwOf_opc, opcode_instr]

/-- An instruction whose ALU arm is `alu` ends its cycle with what `alu` makes of its operands' values pending (R118). -/
theorem exec_cycleEnds {i : Instr} {s : State} {alu : Word → Word → Word → AluOut} {pending : WriteBack}
    (he : exec i s = executeCycle alu i.operands.1 i.operands.2.1 i.operands.2.2 s) (hp : s.pendingOf alu i = pending) :
    ∃ t, exec i s = .next t ∧ CycleEnds s t pending := by
  obtain ⟨t, ht, hcycle, -⟩ := executeCycle_spec alu i.operands.1 i.operands.2.1 i.operands.2.2 s
  exact ⟨t, he.trans ht, hp ▸ hcycle⟩

/-! ### The two conditions and the arms that test them -/

theorem isNonZero_eq_decide (a : Word) : isNonZero a = decide (a ≠ 0) := by
  rw [isNonZero, decide_not, bne, beq_eq_decide]

/-- Bit 15 is the sign bit of a word, which is set from 32768 on. -/
theorem isNegative_eq_decide (a : Word) : isNegative a = decide (32768 ≤ a.toNat) :=
  (BitVec.msb_eq_getLsbD_last a).symm.trans (BitVec.msb_eq_decide a)

theorem pendingOf_aluMnz (s : State) (i : Instr) : s.pendingOf aluMnz i =
    { active := decide (s.operandValue i.operands.1 ≠ 0), value := s.operandValue i.operands.2.1
      dest := s.operandValue i.operands.2.2 } := by
  simp only [State.pendingOf, aluMnz, isNonZero_eq_decide, BitVec.ofNat_toNat, BitVec.setWidth_eq]

theorem pendingOf_aluMlz (s : State) (i : Instr) : s.pendingOf aluMlz i =
    { active := decide (32768 ≤ (s.operandValue i.operands.1).toNat), value := s.operandValue i.operands.2.1
      dest := s.operandValue i.operands.2.2 } := by
  simp only [State.pendingOf, aluMlz, isNegative_eq_decide, BitVec.ofNat_toNat, BitVec.setWidth_eq]

/-! ### The obligations about the conditional moves -/

/-- Settles O14: MNZ is a cycle of `aluMnz`, which writes `b` when `a` is not zero. -/
theorem mnzMovesWhenNotZero : Obligations.MnzMovesWhenNotZero := by
  unfold Obligations.MnzMovesWhenNotZero
  exact ⟨encodedAs_instr .mnz, fun _ _ _ s => exec_cycleEnds rfl (pendingOf_aluMnz s _)⟩

/-- Settles O15: MLZ is a cycle of `aluMlz`, which writes `b` when bit 15 of `a` is set. -/
theorem mlzMovesWhenBit15IsSet : Obligations.MlzMovesWhenBit15IsSet := by
  unfold Obligations.MlzMovesWhenBit15IsSet
  exact ⟨encodedAs_instr .mlz, fun _ _ _ s => exec_cycleEnds rfl (pendingOf_aluMlz s _)⟩

end Sys2Proof.Machine
end

section
/-! The arithmetic instructions (R151 to R153), and the end of a cycle of an ALU arm that always writes (R117). -/

namespace Sys2Proof.Machine

/-- An instruction whose ALU arm always writes ends its cycle with the arm's value pending, modulo 65536 (R31, R117, R118). -/
theorem exec_cycleEnds_alwaysWrites {i : Instr} {s : State} {f : Word → Word → Nat} {v : Word}
    (he : exec i s = executeCycle (alwaysWrites f) i.operands.1 i.operands.2.1 i.operands.2.2 s)
    (hv : BitVec.ofNat 16 (f (s.operandValue i.operands.1) (s.operandValue i.operands.2.1)) = v) :
    ∃ t, exec i s = .next t ∧ CycleEnds s t { active := true, value := v, dest := s.operandValue i.operands.2.2 } :=
  exec_cycleEnds he (hv ▸ rfl)

/-! ### The values of ADD and SUB -/

theorem addValue_eq_toNat_add (a b : Word) : addValue a b = (a + b).toNat :=
  (BitVec.toNat_add a b).symm

/-- The natural number the model computes is the integer of R152. -/
theorem subValue_cast (a b : Word) : (subValue a b : Int) = ((a.toNat : Int) - b.toNat + 65536) % 65536 := by
  have hb : b.toNat < 65536 := b.isLt
  unfold subValue wordSize
  omega

/-- The difference of R152 is the one of 16-bit words. -/
theorem ofNat_subValue (a b : Word) : BitVec.ofNat 16 (subValue a b) = a - b := by
  have hb : b.toNat < 65536 := b.isLt
  apply BitVec.eq_of_toNat_eq
  rw [BitVec.toNat_ofNat, BitVec.toNat_sub, subValue, wordSize]
  omega

/-! ### The obligations about ADD and SUB -/

/-- Settles O16: ADD is a cycle that always writes `addValue`, which is the sum of R151. -/
theorem addLeavesTheSumModulo65536 : Obligations.AddLeavesTheSumModulo65536 := by
  unfold Obligations.AddLeavesTheSumModulo65536
  exact ⟨encodedAs_instr .add, fun _ _ _ _ => exec_cycleEnds_alwaysWrites rfl rfl⟩

/-- Settles O17: SUB is a cycle that always writes `subValue`, which as an integer is the difference of R152. -/
theorem subLeavesTheDifferenceModulo65536 : Obligations.SubLeavesTheDifferenceModulo65536 := by
  unfold Obligations.SubLeavesTheDifferenceModulo65536
  refine ⟨encodedAs_instr .sub, fun _ _ _ _ => exec_cycleEnds_alwaysWrites rfl ?_⟩
  rw [← BitVec.ofInt_natCast, subValue_cast]
  rfl

/-- Settles O28: on 16-bit words ADD and SUB are addition and subtraction, which cancel. -/
theorem addRestoresWhatSubTook : Obligations.AddRestoresWhatSubTook := by
  unfold Obligations.AddRestoresWhatSubTook
  intro a b
  rw [ofNat_subValue, addValue_eq_toNat_add, BitVec.sub_add_cancel]

end Sys2Proof.Machine
end

section
/-! The logical instructions (R161 to R164): the ALU computes them on natural numbers, and each is the operation of the
same name on 16-bit words. -/

namespace Sys2Proof.Machine

/-- An arm that always writes a number which is a word leaves that word pending, nothing being truncated (R31, R118). -/
theorem exec_cycleEnds_word {i : Instr} {s : State} {f : Word → Word → Nat} {v : Word}
    (he : exec i s = executeCycle (alwaysWrites f) i.operands.1 i.operands.2.1 i.operands.2.2 s)
    (hv : f (s.operandValue i.operands.1) (s.operandValue i.operands.2.1) = v.toNat) :
    ∃ t, exec i s = .next t ∧ CycleEnds s t { active := true, value := v, dest := s.operandValue i.operands.2.2 } :=
  exec_cycleEnds_alwaysWrites he (by rw [hv, BitVec.ofNat_toNat, BitVec.setWidth_eq])

/-! ### The values of AND, OR, XOR and ANT -/

theorem andValue_eq_toNat_and (a b : Word) : andValue a b = (a &&& b).toNat :=
  (BitVec.toNat_and a b).symm

theorem orValue_eq_toNat_or (a b : Word) : orValue a b = (a ||| b).toNat :=
  (BitVec.toNat_or a b).symm

theorem xorValue_eq_toNat_xor (a b : Word) : xorValue a b = (a ^^^ b).toNat :=
  (BitVec.toNat_xor a b).symm

/-- The complement `65535 - b` of R15 is the bitwise complement of a 16-bit word. -/
theorem antValue_eq_toNat_and_not (a b : Word) : antValue a b = (a &&& ~~~b).toNat := by
  rw [BitVec.toNat_and, BitVec.toNat_not]
  rfl

/-! ### The obligations about the logical instructions -/

/-- Settles O18: AND is a cycle that always writes `andValue`, which is the AND of 16-bit words. -/
theorem andLeavesTheBitwiseAnd : Obligations.AndLeavesTheBitwiseAnd := by
  unfold Obligations.AndLeavesTheBitwiseAnd
  exact ⟨encodedAs_instr .and, fun _ _ _ _ => exec_cycleEnds_word rfl (andValue_eq_toNat_and _ _)⟩

/-- Settles O19: OR is a cycle that always writes `orValue`, which is the OR of 16-bit words. -/
theorem orLeavesTheBitwiseOr : Obligations.OrLeavesTheBitwiseOr := by
  unfold Obligations.OrLeavesTheBitwiseOr
  exact ⟨encodedAs_instr .or, fun _ _ _ _ => exec_cycleEnds_word rfl (orValue_eq_toNat_or _ _)⟩

/-- Settles O20: XOR is a cycle that always writes `xorValue`, which is the exclusive OR of 16-bit words. -/
theorem xorLeavesTheBitwiseExclusiveOr : Obligations.XorLeavesTheBitwiseExclusiveOr := by
  unfold Obligations.XorLeavesTheBitwiseExclusiveOr
  exact ⟨encodedAs_instr .xor, fun _ _ _ _ => exec_cycleEnds_word rfl (xorValue_eq_toNat_xor _ _)⟩

/-- Settles O21: ANT is a cycle that always writes `antValue`, the AND with the complement of operand 2. -/
theorem antLeavesAAndNotB : Obligations.AntLeavesAAndNotB := by
  unfold Obligations.AntLeavesAAndNotB
  exact ⟨encodedAs_instr .ant, fun _ _ _ _ => exec_cycleEnds_word rfl (antValue_eq_toNat_and_not _ _)⟩

end Sys2Proof.Machine
end

section
/-! The shift instructions (R171 to R175): every value but SL's is already a word, the amount is a whole 16-bit value, and
SRA keeps to the low byte. -/

namespace Sys2Proof.Machine

/-! ### The values of SL, SRL, SRA, SRU and SRE -/

/-- What the pending register keeps of the unbounded shift is the shift of a 16-bit word (R31). -/
theorem ofNat_slValue (a b : Word) : BitVec.ofNat 16 (slValue a b) = a <<< b.toNat :=
  BitVec.eq_of_toNat_eq BitVec.toNat_shiftLeft.symm

theorem srlValue_eq_toNat_ushiftRight (a b : Word) : srlValue a b = (a >>> b.toNat).toNat :=
  (BitVec.toNat_ushiftRight a b.toNat).symm

theorem sraValue_eq_toNat (a b : Word) : sraValue a b = ((a &&& 0x80) ^^^ ((a &&& 0x7F) >>> b.toNat)).toNat := by
  rw [BitVec.toNat_xor, BitVec.toNat_ushiftRight, BitVec.toNat_and, BitVec.toNat_and]
  rfl

theorem sruValue_eq_toNat_ushiftRight (a b : Word) : sruValue a b = (b >>> 1).toNat :=
  (BitVec.toNat_ushiftRight b 1).symm

theorem sreValue_eq_toNat_ushiftRight (a b : Word) : sreValue a b = (b >>> 8).toNat :=
  (BitVec.toNat_ushiftRight b 8).symm

/-! ### The 8-bit range of SRA -/

/-- Seven places shift out all of `a & 0x7F`, and the bit of `a & 0x80` is left. -/
theorem sraValue_of_seven_le {a b : Word} (hb : 7 ≤ b.toNat) : sraValue a b = a.toNat &&& 0x80 := by
  have hlow : a.toNat &&& 0x7F < 2 ^ b.toNat :=
    (Nat.and_lt_two_pow _ (by decide)).trans_le (Nat.pow_le_pow_right two_pos hb)
  rw [sraValue, Nat.shiftRight_eq_zero _ _ hlow, Nat.xor_zero]

theorem sraValue_lt (a b : Word) : sraValue a b < 256 := by
  have hbit : a.toNat &&& 0x80 < 2 ^ 8 := Nat.and_lt_two_pow _ (by decide)
  have hlow : (a.toNat &&& 0x7F) >>> b.toNat < 2 ^ 8 :=
    (Nat.shiftRight_le _ _).trans_lt (Nat.and_lt_two_pow _ (by decide))
  exact Nat.xor_lt_two_pow hbit hlow

/-- The two masks of R173 together are the mask of the low byte. -/
theorem sraValue_zero (a : Word) : sraValue a 0 = a.toNat % 256 :=
  calc sraValue a 0 = a.toNat &&& (0x80 ^^^ 0x7F) := Nat.and_xor_distrib_left.symm
    _ = a.toNat % 256 := Nat.and_two_pow_sub_one_eq_mod a.toNat 8

/-! ### The end of a cycle with its diagnostics -/

/-- A known end of an instruction's cycle comes with the counts and the warnings of its reads: the cycle has one end state. -/
theorem cycleEnds_with_diagnostics {i : Instr} {s : State} {pending : WriteBack}
    (h : ∃ t, exec i s = .next t ∧ CycleEnds s t pending) :
    ∃ t, exec i s = .next t ∧ CycleEnds s t pending ∧
      (∀ j, t.count j = s.count j + BitVec.ofNat 64 ((s.accesses (s.instrTrail i)).count j)) ∧
      t.warnings = s.warnings ++ warningsFor s.cfg s.pc s.steps (s.instrTrail i) := by
  obtain ⟨t, he, hcycle⟩ := h
  obtain ⟨t', he', hdiag⟩ := exec_diagEnds i s
  obtain rfl : t = t' := Host.Outcome.next.inj (he.symm.trans he')
  exact ⟨t, he, hcycle, hdiag.count, hdiag.warnings⟩

/-! ### The obligations about the shifts -/

/-- Settles O22: SL is a cycle that always writes `slValue`, and a left shift multiplies by a power of two. -/
theorem slStoresTheShiftModulo65536 : Obligations.SlStoresTheShiftModulo65536 := by
  unfold Obligations.SlStoresTheShiftModulo65536
  refine ⟨encodedAs_instr .sl, fun _ _ _ _ => exec_cycleEnds_alwaysWrites rfl ?_⟩
  rw [slValue, Nat.shiftLeft_eq]
  exact BitVec.eq_of_toNat_eq (Nat.mod_mod _ _).symm

/-- Settles O23: SRL is a cycle that always writes `srlValue`, and a right shift divides by a power of two. -/
theorem srlShiftsRightWithZeros : Obligations.SrlShiftsRightWithZeros := by
  unfold Obligations.SrlShiftsRightWithZeros
  exact ⟨encodedAs_instr .srl, fun _ _ _ _ =>
    exec_cycleEnds_alwaysWrites rfl (congrArg (BitVec.ofNat 16) (Nat.shiftRight_eq_div_pow _ _))⟩

/-- Settles O24: SRA is a cycle that always writes `sraValue`, the formula of R173 on 16-bit words. -/
theorem sraShiftsTheLowByteOnly : Obligations.SraShiftsTheLowByteOnly := by
  unfold Obligations.SraShiftsTheLowByteOnly
  exact ⟨encodedAs_instr .sra, fun _ _ _ _ => exec_cycleEnds_word rfl (sraValue_eq_toNat _ _)⟩

/-- Settles O25: SRU is a cycle that always writes `sruValue`; it reads operand 1 as every instruction does. -/
theorem sruHalvesOperandTwo : Obligations.SruHalvesOperandTwo := by
  unfold Obligations.SruHalvesOperandTwo
  exact ⟨encodedAs_instr .sru, fun _ _ _ _ =>
    cycleEnds_with_diagnostics (exec_cycleEnds_word rfl (sruValue_eq_toNat_ushiftRight _ _))⟩

/-- Settles O26: SRE is a cycle that always writes `sreValue`; it reads operand 1 as every instruction does. -/
theorem sreExtractsTheHighByteOfOperandTwo : Obligations.SreExtractsTheHighByteOfOperandTwo := by
  unfold Obligations.SreExtractsTheHighByteOfOperandTwo
  exact ⟨encodedAs_instr .sre, fun _ _ _ _ =>
    cycleEnds_with_diagnostics (exec_cycleEnds_word rfl (sreValue_eq_toNat_ushiftRight _ _))⟩

/-- Settles O27: a shift of a 16-bit word by 16 or more is 0, and SRA's result is a byte. -/
theorem shiftsByLargeAmounts : Obligations.ShiftsByLargeAmounts := by
  unfold Obligations.ShiftsByLargeAmounts
  refine fun a b => ⟨fun hb => ⟨?_, ?_⟩, sraValue_of_seven_le, sraValue_lt a b, sraValue_zero a⟩
  · rw [ofNat_slValue, BitVec.shiftLeft_eq_zero hb]
    rfl
  · rw [srlValue_eq_toNat_ushiftRight, BitVec.ushiftRight_eq_zero hb]
    rfl

end Sys2Proof.Machine
end

section
/-! Faults of the core (R201 to R207, R241): only a fetched line that does not decode raises one, and the state it leaves is
that of the counted fetch with the run state and the cause changed. -/

namespace Sys2Proof.Machine

/-! ### The record of a faulted machine, and its readout -/

section
variable {s : State} (hr : s.run = .faulted)
include hr

theorem faultRecord_of_text (hc : s.cause = .decodeError) {l : List Char} (hl : s.rom[s.pc.toNat]? = some (.text l)) :
    s.faultRecord = some (.decodeError s.pc l) := by
  simp only [State.faultRecord, hr, hc, hl]

theorem faultRecord_of_word (hc : s.cause = .illegalEncoding) {w : Diw} (hl : s.rom[s.pc.toNat]? = some (.word w)) :
    s.faultRecord = some (.illegalEncoding s.pc w) := by
  simp only [State.faultRecord, hr, hc, hl]

theorem faultRecord_of_inputError (hc : s.cause = .inputError) : s.faultRecord = some .inputError := by
  simp only [State.faultRecord, hr, hc]

theorem hostReadout_of_faulted : hostReadout s = .fault (.failedRun s.cause) := by
  simp only [hostReadout, hr]

end

/-- Settles O56: the readout goes by the run state alone. -/
theorem onlyAHaltedRunHasOutput : Obligations.OnlyAHaltedRunHasOutput := by
  unfold Obligations.OnlyAHaltedRunHasOutput
  exact fun s => ⟨hostReadout_of_faulted, fun hr => by simp only [hostReadout, hr]⟩

/-! ### The step that faults -/

/-- A fetch that faults counts its one access of cell 0 and changes nothing else but the run state and the cause (R207). -/
theorem fetchFault_frame (s : State) (c : Cause) :
    let t := (s.bump 0).takeFault c
    t = { s with run := .faulted, cause := c, cnt := t.cnt } ∧
      t.count 0 = s.count 0 + 1 ∧ ∀ j, j ≠ 0 → t.count j = s.count j := by
  refine ⟨rfl, ?_, fun j hj => ?_⟩
  · simp
  · simp [Ne.symm hj]

theorem rejectCause_of_decodeText {l : List Char} {e : Reject} (hd : decodeText l = .error e) :
    rejectCause e = .decodeError := by
  obtain ⟨x, rfl⟩ := decodeText_error hd
  rfl

/-- A rejected word has opcode field 13, 14 or 15, and is an illegal encoding (R90, R203). -/
theorem rejectCause_of_decodeWord {w : Diw} {e : Reject} (hd : decodeWord w = .error e) :
    13 ≤ w.toNat / 2 ^ 54 ∧ rejectCause e = .illegalEncoding := by
  obtain ⟨hlegal, hillegal⟩ := diwIsIllegalExactlyByItsOpcodeField w
  have hfield : 13 ≤ w.toNat / 2 ^ 54 := by
    by_contra hlt
    obtain ⟨i, hi⟩ := hlegal (not_le.mp hlt)
    exact absurd (hd.symm.trans hi) (by simp)
  obtain ⟨⟨e', hd', hcause⟩, -⟩ := hillegal hfield
  obtain rfl : e = e' := Except.error.inj (hd.symm.trans hd')
  exact ⟨hfield, hcause⟩

/-- Settles O35: `step_of_reject` with the frame of a fetch that faults; the line is still the one at the PC. -/
theorem malformedLineFaultsBeforeTheCommit : Obligations.MalformedLineFaultsBeforeTheCommit := by
  unfold Obligations.MalformedLineFaultsBeforeTheCommit
  intro s l e hr hl hd
  have hs := step_of_reject hr hl hd
  rw [rejectCause_of_decodeText hd] at hs
  obtain ⟨hframe, hzero, hother⟩ := fetchFault_frame s .decodeError
  exact ⟨_, hs, hframe, hzero, hother, faultRecord_of_text rfl rfl hl⟩

/-- Settles O36: an opcode field of 13 or more is rejected (`diwIsIllegalExactlyByItsOpcodeField`), and a rejected word faults
as a rejected line does. -/
theorem illegalWordFaultsBeforeTheCommit : Obligations.IllegalWordFaultsBeforeTheCommit := by
  unfold Obligations.IllegalWordFaultsBeforeTheCommit
  intro s w hr hl hfield
  obtain ⟨-, hillegal⟩ := diwIsIllegalExactlyByItsOpcodeField w
  obtain ⟨⟨e, hd, hcause⟩, -⟩ := hillegal hfield
  have hs := step_of_reject hr hl hd
  rw [hcause] at hs
  obtain ⟨hframe, hzero, hother⟩ := fetchFault_frame s .illegalEncoding
  exact ⟨_, hs, hframe, hzero, hother, faultRecord_of_word rfl rfl hl⟩

/-- No instruction changes the run state or the cause (R206). -/
theorem exec_keeps_run (i : Instr) (s : State) : ∃ t, exec i s = .next t ∧ t.run = s.run ∧ t.cause = s.cause := by
  obtain ⟨t, he, -, -, hrun, hcause, -⟩ := everyInstructionKeepsTheRestOfTheMachine i s
  exact ⟨t, he, hrun, hcause⟩

/-- Settles O37: of the ways of a running machine's step, the halt and the instruction do not end Faulted, and the rejection is
that of a text line or of a word. -/
theorem faultsComeOnlyFromDecoding : Obligations.FaultsComeOnlyFromDecoding := by
  unfold Obligations.FaultsComeOnlyFromDecoding
  refine ⟨exec_keeps_run, fun s hr => ?_⟩
  rcases step_cases s with ⟨hne, -⟩ | ⟨-, -, hs⟩ | ⟨-, line, e, hl, hd, hs⟩ | ⟨-, line, i, -, -, hs⟩
  · exact absurd hr hne
  · exact ⟨_, hs, fun hf => absurd hf (by simp)⟩
  · refine ⟨_, hs, fun _ => ?_⟩
    cases line with
    | text l => exact .inl ⟨l, e, hl, hd, rejectCause_of_decodeText hd⟩
    | word w =>
      obtain ⟨hfield, hcause⟩ := rejectCause_of_decodeWord hd
      exact .inr ⟨w, hl, hfield, hcause⟩
  · obtain ⟨t, he, hrun, -⟩ := exec_keeps_run i (s.bump 0)
    exact ⟨t, hs.trans he, fun hf => absurd (hrun.symm.trans hf) (by simp [hr])⟩

end Sys2Proof.Machine
end

section
/-! The launch with an unreadable input (R204, R232, R236): the loaded state, faulted before any cycle. -/

namespace Sys2Proof.Machine

/-! ### What a state can hold (R12, R86) -/

theorem exists_windowOf_iff (n : Nat) : (∃ k, windowOf n = some k) ↔ ∃ k, 2 ≤ k ∧ k ≤ 16 ∧ n = 2 ^ k := by
  rw [← Option.ne_none_iff_exists', Ne, windowOf_eq_none, not_not]

theorem legalRomWord_iff (w : Int) : legalRomWord w = true ↔ 0 ≤ w ∧ w < 2 ^ 58 := by
  simp [legalRomWord]

theorem exists_romLines_iff (src : RomSource) :
    (∃ rom, romLines src = .ok rom) ↔ ∀ vs v, src = .words vs → v ∈ vs → 0 ≤ v ∧ v < 2 ^ 58 := by
  cases src with
  | text file => exact iff_of_true ⟨_, rfl⟩ fun _ _ h => absurd h (by simp)
  | words ws =>
    cases hf : ws.find? fun w => !legalRomWord w with
    | none =>
      have hlegal : ∀ v ∈ ws, legalRomWord v = true := by simpa using hf
      refine iff_of_true (by simp [romLines, hf]) fun vs v hvs hv => ?_
      obtain rfl := RomSource.words.inj hvs
      exact (legalRomWord_iff v).mp (hlegal v hv)
    | some w =>
      have hillegal : legalRomWord w = false := by simpa using List.find?_some hf
      refine iff_of_false (by simp [romLines, hf]) fun hheld => ?_
      have hrange := hheld ws w rfl (List.mem_of_find?_eq_some hf)
      exact absurd ((legalRomWord_iff w).mpr hrange) (by simp [hillegal])

/-! ### The state the launch leaves -/

@[simp] theorem loadWords_wb (addr : Int) (ws : List Word) (s : State) : (loadWords addr ws s).wb = s.wb := by
  rw [loadWords_frame]

@[simp] theorem loadWords_steps (addr : Int) (ws : List Word) (s : State) : (loadWords addr ws s).steps = s.steps := by
  rw [loadWords_frame]

@[simp] theorem loadWords_warnings (addr : Int) (ws : List Word) (s : State) :
    (loadWords addr ws s).warnings = s.warnings := by
  rw [loadWords_frame]

theorem powerOn_count (cfg : Config) (mem0 : Memory) (rom : List RomLine) (j : Nat) :
    (State.powerOn cfg mem0 rom).count j = 0 := rfl

/-- Every cell of the window at its reset value (R40). -/
theorem powerOn_cell {cfg : Config} {j : Nat} (hj : j < cfg.nAddr) (mem0 : List (Nat × Word)) (rom : List RomLine) :
    (State.powerOn cfg (powerOnMemory cfg.nAddr mem0) rom).cell j = if j = 0 then 0 else mem0Value mem0 j := by
  rw [State.cell, powerOn_mem, get_powerOnMemory]
  by_cases h : j = 0
  · simp [h]
  · simp [h, hj, Nat.pos_of_ne_zero h]

theorem loadedState_unreadable {inp : LaunchInput} {ws : List Word} (hin : inp.input = .unreadable ws) (cfg : Config)
    (rom : List RomLine) : loadedState cfg inp rom =
      (loadWords cfg.inBase ws (State.powerOn cfg (powerOnMemory cfg.nAddr inp.mem0) rom)).takeFault .inputError := by
  simp only [loadedState, hin, inputWords]

/-- An unreadable launch is the loaded state exactly when a state can hold its window and its ROM (log entry 11). -/
theorem launch_unreadable_cases {inp : LaunchInput} {ws : List Word} (hin : inp.input = .unreadable ws) :
    let held := (∃ k, 2 ≤ k ∧ k ≤ 16 ∧ inp.nAddr = 2 ^ k) ∧
      ∀ vs v, inp.rom = .words vs → v ∈ vs → 0 ≤ v ∧ v < 2 ^ 58
    (held ∧ ∃ k rom, windowOf inp.nAddr = some k ∧ launch inp = .next (loadedState (launchConfig inp k) inp rom)) ∨
    (¬ held ∧ launch inp = .fault (.failedRun .inputError)) := by
  rw [← exists_windowOf_iff, ← exists_romLines_iff]
  rcases launch_unreadable hin with ⟨k, rom, hw, hrom, hs⟩ | ⟨hbad, hs⟩
  · exact .inl ⟨⟨⟨k, hw⟩, rom, hrom⟩, k, rom, hw, hs⟩
  · refine .inr ⟨?_, hs⟩
    rintro ⟨⟨k, hw⟩, rom, hrom⟩
    rcases hbad with hnone | ⟨w, herr⟩
    · exact absurd (hw.symm.trans hnone) (by simp)
    · exact absurd (hrom.symm.trans herr) (by simp)

/-- Settles O6: the launch is the loaded state or the input error (`launch_unreadable_cases`); the cells and the counters of the
loaded state are the loader's, over those of the power-on. -/
theorem unreadableInputEndsTheLaunchFaulted : Obligations.UnreadableInputEndsTheLaunchFaulted := by
  unfold Obligations.UnreadableInputEndsTheLaunchFaulted
  intro inp ws hin
  rcases launch_unreadable_cases hin with ⟨hheld, k, rom, hw, hs⟩ | ⟨hnot, hs⟩
  · refine ⟨fun _ => ⟨_, hs, ?_⟩, fun hnot => absurd hheld hnot⟩
    rw [loadedState_unreadable hin]
    have hwindow : (launchConfig inp k).nAddr = inp.nAddr := windowOf_some hw
    simp only [takeFault_cfg, takeFault_cell, takeFault_count, loadWords_cfg, powerOn_cfg]
    refine ⟨rfl, rfl, by simp, by simp, by simp, hwindow, fun k' w hk' hlast => ?_, fun j hj huntouched => ?_,
      fun j => ?_, step_of_ended (by simp [State.Ended]), faultRecord_of_inputError rfl rfl, hostReadout_of_faulted rfl⟩
    · exact loadWords_last inp.inBase ws _ k' w hk' hlast
    · exact (loadWords_untouched inp.inBase ws _ j huntouched).1.trans (powerOn_cell (hj.trans_eq hwindow.symm) inp.mem0 rom)
    · rw [loadWords_count, powerOn_count, zero_add]
      rfl
  · exact ⟨fun hheld => absurd hheld hnot, fun _ => hs⟩

end Sys2Proof.Machine
end

section
/-! The launch with a readable input (R231 to R238): the reset state, the three reasons that refuse a launch, and the state an
accepted one leaves. -/

namespace Sys2Proof.Machine

/-! ### Reset -/

/-- Settles O1: the power-on state's fields are given by its definition, and its cells by `powerOn_cell`. -/
theorem powerOnLeavesTheResetValues : Obligations.PowerOnLeavesTheResetValues := by
  unfold Obligations.PowerOnLeavesTheResetValues
  intro cfg mem0 rom
  refine ⟨rfl, ?_, fun j hpos hj => ?_, rfl, rfl, powerOn_count cfg _ rom, rfl, rfl, rfl⟩
  · rw [State.pc, powerOn_cell (nAddr_pos cfg), if_pos rfl]
  · rw [powerOn_cell hj, if_neg hpos.ne']

/-! ### The reasons of a refusal (R235) -/

theorem cellIndex_eq_zero_iff (c : Config) (addr : Int) : cellIndex c addr = 0 ↔ addr % c.nAddr = 0 := by
  rw [← cellIndex_cast, Int.natCast_eq_zero]

theorem inputOnPc_eq_false_iff (c : Config) (n : Nat) :
    inputOnPc c n = false ↔ ∀ k < n, cellIndex c (c.inBase + (k : Nat)) ≠ 0 := by
  simp [inputOnPc]

section
variable {inp : LaunchInput} {bs : List Byte} (hin : inp.input = .bytes bs)
include hin

theorem launch_accepts_iff_checks_pass : (∃ s, launch inp = .next s) ↔
    ∃ k, windowOf inp.nAddr = some k ∧ (∃ rom, romLines inp.rom = .ok rom) ∧
      inputOnPc (launchConfig inp k) (packWords bs).length = false := by
  constructor
  · rintro ⟨s, hs⟩
    rcases launch_readable hin with ⟨r, hr⟩ | ⟨k, rom, hwindow, hrom, honPc, -⟩
    · exact absurd (hs.symm.trans hr) (by simp)
    · exact ⟨k, hwindow, ⟨rom, hrom⟩, honPc⟩
  · rintro ⟨k, hwindow, ⟨rom, hrom⟩, honPc⟩
    exact ⟨loadedState (launchConfig inp k) inp rom, by simp [launch, hin, hwindow, hrom, honPc]⟩

/-- The checks of the model are the three reasons of R235: each holds of no accepted launch. -/
theorem launch_accepts_iff_no_reason : (∃ s, launch inp = .next s) ↔
    (∃ k, 2 ≤ k ∧ k ≤ 16 ∧ inp.nAddr = 2 ^ k) ∧
    (∀ vs v, inp.rom = .words vs → v ∈ vs → 0 ≤ v ∧ v < 2 ^ 58) ∧
    ∀ k : Nat, k < (packWords bs).length → (inp.inBase + k) % (inp.nAddr : Int) ≠ 0 := by
  rw [launch_accepts_iff_checks_pass hin, ← exists_windowOf_iff, ← exists_romLines_iff, ← exists_and_right]
  refine exists_congr fun k => and_congr_right fun hwindow => and_congr_right fun _ => ?_
  have hnAddr : (launchConfig inp k).nAddr = inp.nAddr := windowOf_some hwindow
  simp only [inputOnPc_eq_false_iff, Ne, cellIndex_eq_zero_iff, hnAddr]
  rfl

end

/-- Settles O3: a readable launch is refused or accepted (`launch_readable`), and accepted exactly when no reason holds; an
unreadable one leaves the loaded state or the input error (`launch_unreadable`). -/
theorem launchRefusedExactlyForTheThreeReasons : Obligations.LaunchRefusedExactlyForTheThreeReasons := by
  unfold Obligations.LaunchRefusedExactlyForTheThreeReasons
  refine fun inp => ⟨fun bs hin => ?_, fun ws hin r hr => ?_⟩
  · intro bad
    have hbad_iff : bad ↔ ¬ ∃ s, launch inp = .next s := by
      rw [launch_accepts_iff_no_reason hin]
      simp only [bad, not_and_or, not_forall, exists_prop, Ne, not_not]
    refine ⟨fun hbad => ?_, fun hgood => not_not.mp (mt hbad_iff.mpr hgood)⟩
    rcases launch_readable hin with hrefused | ⟨k, rom, -, -, -, hs⟩
    · exact hrefused
    · exact absurd ⟨_, hs⟩ (hbad_iff.mp hbad)
  · rcases launch_unreadable hin with ⟨k, rom, -, -, hs⟩ | ⟨-, hs⟩
    · exact absurd (hs.symm.trans hr) (by simp)
    · exact absurd (hs.symm.trans hr) (by simp)

/-! ### The state an accepted launch leaves -/

@[simp] theorem loadWords_run (addr : Int) (ws : List Word) (s : State) : (loadWords addr ws s).run = s.run := by
  rw [loadWords_frame]

@[simp] theorem loadWords_cause (addr : Int) (ws : List Word) (s : State) : (loadWords addr ws s).cause = s.cause := by
  rw [loadWords_frame]

@[simp] theorem loadWords_rom (addr : Int) (ws : List Word) (s : State) : (loadWords addr ws s).rom = s.rom := by
  rw [loadWords_frame]

theorem loadedState_readable {inp : LaunchInput} {bs : List Byte} (hin : inp.input = .bytes bs) (cfg : Config)
    (rom : List RomLine) : loadedState cfg inp rom =
      loadWords cfg.inBase (packWords bs) (State.powerOn cfg (powerOnMemory cfg.nAddr inp.mem0) rom) := by
  simp only [loadedState, hin, inputWords]

/-- A cell of the window that no input word is written to is as after reset (R40, R238). -/
theorem loadedState_untouched {inp : LaunchInput} {bs : List Byte} (hin : inp.input = .bytes bs) {cfg : Config} {j : Nat}
    (hj : j < cfg.nAddr) (h : ∀ k : Nat, k < (packWords bs).length → cellIndex cfg (cfg.inBase + k) ≠ j)
    (rom : List RomLine) :
    (loadedState cfg inp rom).cell j = (if j = 0 then 0 else mem0Value inp.mem0 j) ∧
    (loadedState cfg inp rom).count j = 0 := by
  obtain ⟨hcell, hcount⟩ := loadWords_untouched cfg.inBase (packWords bs)
    (State.powerOn cfg (powerOnMemory cfg.nAddr inp.mem0) rom) j h
  rw [loadedState_readable hin]
  exact ⟨hcell.trans (powerOn_cell hj inp.mem0 rom), hcount.trans (powerOn_count cfg _ rom j)⟩

theorem romLines_text {src : RomSource} {file : List Char} {rom : List RomLine} (hsrc : src = .text file)
    (h : romLines src = .ok rom) : rom = (romTextLines file).map .text := by
  subst hsrc
  exact (Except.ok.inj h).symm

/-- Pre-decoded lines that are taken stand in the ROM as they are (R86, R233). -/
theorem romLines_words {src : RomSource} {vs : List Int} {rom : List RomLine} (hsrc : src = .words vs)
    (h : romLines src = .ok rom) : rom.length = vs.length ∧
      ∀ (k : Nat) (v : Int), vs[k]? = some v → ∃ d : Diw, rom[k]? = some (.word d) ∧ (d.toNat : Int) = v := by
  have hrange := (exists_romLines_iff src).mp ⟨rom, h⟩
  have hrom : rom = vs.map fun w => .word (BitVec.ofNat 58 w.toNat) := by
    subst hsrc
    cases hf : vs.find? fun w => !legalRomWord w with
    | none => simpa [romLines, hf] using h.symm
    | some w => simp [romLines, hf] at h
  refine ⟨by simp [hrom], fun k v hv => ⟨BitVec.ofNat 58 v.toNat, by simp [hrom, hv], ?_⟩⟩
  obtain ⟨hnonneg, hlt⟩ := hrange vs v hsrc (List.mem_of_getElem? hv)
  rw [BitVec.toNat_ofNat, Nat.mod_eq_of_lt (by omega), Int.toNat_of_nonneg hnonneg]

/-- Settles O4: the launch answers the loaded state (`launch_readable`). No word lands on cell 0, so no two land on one cell, and
each is read back where it was written. -/
theorem launchLoadsThePackedInput : Obligations.LaunchLoadsThePackedInput := by
  unfold Obligations.LaunchLoadsThePackedInput
  intro inp bs s hin hs
  rcases launch_readable hin with ⟨r, hr⟩ | ⟨k, rom, hwindow, hrom, honPc, hloaded⟩
  · exact absurd (hs.symm.trans hr) (by simp)
  obtain rfl : s = _ := Host.Outcome.next.inj (hs.symm.trans hloaded)
  have hnAddr : (launchConfig inp k).nAddr = inp.nAddr := windowOf_some hwindow
  have hreset := fun j hj h => loadedState_untouched hin (cfg := launchConfig inp k) (j := j) hj h rom
  have hpc := (hreset 0 (nAddr_pos _) ((inputOnPc_eq_false_iff _ _).mp honPc)).1
  rw [loadedState_readable hin] at hreset hpc ⊢
  simp only [loadWords_cfg, powerOn_cfg, loadWords_rom, powerOn_rom]
  refine ⟨by simp, hpc, by simp, by simp, by simp, by simp, hnAddr, rfl, rfl, rfl, rfl, rfl, rfl,
    fun file hfile => romLines_text hfile hrom, fun vs hvs => romLines_words hvs hrom, fun i w hw => ?_,
    fun j hpos hj huntouched => ?_⟩
  · obtain ⟨hi, -⟩ := List.getElem?_eq_some_iff.mp hw
    exact loadWords_written inp.inBase _ _ i w hw fun i' hi' hne => inputCells_distinct honPc hi hi' hne
  · obtain ⟨hcell, hcount⟩ := hreset j (hj.trans_eq hnAddr.symm) huntouched
    exact ⟨hcell.trans (if_neg hpos.ne'), hcount⟩

end Sys2Proof.Machine
end

section
/-! The host's codec: the input packed into words (R237), and the bytes of the output (R243, R244). -/

namespace Sys2Proof.Machine

/-- A word's low byte below its high byte (R237). -/
theorem setWidth_or_shiftLeft (lo hi : Byte) :
    lo.setWidth 16 ||| (hi.setWidth 16 <<< 8) = BitVec.ofNat 16 (lo.toNat ||| (hi.toNat <<< 8)) := by
  rw [BitVec.ofNat_or]
  congr 1
  simp

theorem packWords_length (bs : List Byte) : (packWords bs).length = (bs.length + 1) / 2 := by
  induction bs using packWords.induct with
  | case1 => rfl
  | case2 b => simp [packWords]
  | case3 lo hi rest ih => simp only [packWords, List.length_cons, ih]; omega

theorem packWords_getElem? (bs : List Byte) {k : Nat} (hk : k < (bs.length + 1) / 2) :
    (packWords bs)[k]? =
      some (BitVec.ofNat 16 ((bs.getD (2 * k) 0).toNat ||| ((bs.getD (2 * k + 1) 0).toNat <<< 8))) := by
  induction bs using packWords.induct generalizing k with
  | case1 => simp at hk
  | case2 b =>
    obtain rfl : k = 0 := by simpa using hk
    simp [packWords]
  | case3 lo hi rest ih =>
    cases k with
    | zero => simp [packWords, setWidth_or_shiftLeft]
    | succ k =>
      have hk' : k < (rest.length + 1) / 2 := by simp only [List.length_cons] at hk; omega
      simpa [packWords, Nat.mul_succ] using ih hk'

/-- Settles O5: the packing takes two bytes at a time, and the byte an odd stream lacks is the default 0. -/
theorem inputBytesPackTwoToAWord : Obligations.InputBytesPackTwoToAWord :=
  fun bs => ⟨packWords_length bs, fun _ => packWords_getElem? bs⟩

theorem extractLsb'_low_byte (w : Word) : w.extractLsb' 0 8 = BitVec.ofNat 8 (w.toNat % 256) := by
  apply BitVec.eq_of_toNat_eq
  simp

/-- Settles O55: the readout is `readDown` (`readDown_spec`); a cell that no byte comes from counts no access. -/
theorem readoutGivesTheLowBytesDownwards : Obligations.ReadoutGivesTheLowBytesDownwards := by
  unfold Obligations.ReadoutGivesTheLowBytesDownwards
  intro s hhalted
  obtain ⟨hout, hframe, hcount⟩ := readDown_spec (s.cfg.outBase - (s.cell 2).toNat).toNat s.cfg.outBase s
  have hlength := congrArg List.length hout
  rw [List.length_map, List.length_range] at hlength
  refine ⟨_, _, by rw [hostReadout, hhalted]; rfl, hlength, fun k hk => ?_, fun j => ?_, fun hnot2 => ?_, hframe⟩
  · rw [hlength] at hk
    rw [hout, List.getElem?_map, List.getElem?_range hk, Option.map_some, extractLsb'_low_byte]
  · rw [hlength]
    exact hcount j
  · rw [hlength] at hnot2
    rw [hcount, List.count_eq_zero.mpr (by simpa using hnot2)]
    simp

end Sys2Proof.Machine
end
